-- ==== Sys2Proof/Word.lean ====
section
/-! DEFINITION. The fixed-width values of CRC32GEN: the accumulator and table words, the data byte, the command word (R7, R9 00_scope.md). -/

namespace Sys2Proof

/-- A 32-bit value: the accumulator, a table word, the result (`W = 32`, R7). -/
abbrev Word := BitVec 32

/-- An input symbol or a table index (`BYTE = 8`, R7). -/
abbrev Byte := BitVec 8

/-- The command code `op`, two bits (R41). -/
abbrev OpCode := BitVec 2

/-- The command word `CW[9:0]`, a notation for `op` and `din` sampled together (R42). -/
abbrev CommandWord := BitVec 10

end Sys2Proof
end

