-- ==== Sys2Proof/Config.lean ====
section
/-! DEFINITION. The constants the spec fixes (R7 00_scope.md), the parameter it leaves open (R8), and the values it leaves free
(R14, R24 10_state.md), which are opaque constants that no proof can see into. -/

namespace Sys2Proof

/-- The parameter `IMPL` (R8, D12): one table lookup per byte, or eight one-bit steps per byte. -/
inductive Impl where
  | table
  | bitserial
  deriving DecidableEq, Repr

namespace Config

/-- `POLY`, the reflected polynomial (R7). -/
def poly : Word := 0xEDB88320#32

/-- `INIT`, the value the accumulator is initialised to (R7). -/
def initAcc : Word := 0xFFFFFFFF#32

/-- `XOROUT`, the value XORed into the accumulator to give the result (R7). -/
def xorOut : Word := 0xFFFFFFFF#32

/-- `NTAB`, the number of table entries (R7). -/
def nTab : Nat := 256

/-- `LAT_UPD`, the busy edges after an accepted `UPD` (R8, R102). -/
def latUpd (impl : Impl) : Nat :=
  match impl with
  | .table => 0
  | .bitserial => 8

/-- FREE VALUE (log 7): what the host samples on `crc` while `ready = 0` (R14, R98, U3). -/
opaque busyCrc (acc : Word) (cnt : BitVec 4) : Word

/-- FREE VALUE (log 8): `ACC` after `n` edges since power-up, none of them a reset edge (R24, U2). -/
opaque preResetAcc (impl : Impl) (n : Nat) : Word

/-- FREE VALUE (log 8): `CNT` after `n` edges since power-up, none of them a reset edge, when it exists (R24, U2). -/
opaque preResetCnt (n : Nat) : BitVec 4

/-- FREE VALUE (log 8): `ready` after `n` edges since power-up, none of them a reset edge, on either implementation (R24, U2, R88 H-1). -/
opaque preResetReady (impl : Impl) (n : Nat) : Bool

/-- FREE VALUE (log 8): `crc` after `n` edges since power-up, none of them a reset edge (R24, U2, R88 H-1). -/
opaque preResetCrc (impl : Impl) (n : Nat) : Word

end Config

end Sys2Proof
end

