-- ==== Sys2Proof/Syntax.lean ====
section
/-! DEFINITION. The command set of CRC32GEN, one constructor per row of the opcode table (R3 00_scope.md, R45 30_encoding.md). -/

namespace Sys2Proof

/-- A decoded command. `din` is an operand of `UPD` alone: the other three ignore it (R46), so they carry none. -/
inductive Instr where
  /-- `NOP`, `op = 00` (R55). -/
  | nop
  /-- `INIT`, `op = 01`: start a message (R56). -/
  | init
  /-- `UPD`, `op = 10`: feed the byte `din` (R57). -/
  | upd (din : Byte)
  /-- `RSVD`, `op = 11`: the reserved code (R59). -/
  | rsvd
  deriving DecidableEq, Repr

end Sys2Proof
end

