-- ==== Sys2Proof/Machine/State.lean ====
section
/-! DEFINITION. The state of CRC32GEN, the ports the host drives, the reasons a step can stop, and the state after reset
(R13 to R24 10_state.md, R41 30_encoding.md). -/

namespace Sys2Proof.Machine

/-- What the host drives at one rising edge (R41). The levels are definite: an undefined one cannot be written (R100, log 15). -/
structure Ports where
  /-- `rst`, synchronous reset, active high. -/
  rst : Bool
  /-- `op`, the command code. -/
  op : OpCode
  /-- `din`, the data byte of an `UPD`; `din[0]` is its least significant bit (R31). -/
  din : Byte
  deriving DecidableEq, Repr

/-- The idle host: no reset, `op = 00`, "the idle value of `op`" (R55). -/
def Ports.idle : Ports := { rst := false, op := 0b00#2, din := 0x00#8 }

/-- The state of the block (`acc`, `cnt`), the parameter it is built with (`impl`, log 1), and the host's samples for the edges to
come (`inputs`, log 2), and whether a reset edge has been applied yet (`preReset`, log 8). The table is a constant, not state (R17). -/
structure State where
  /-- `IMPL` (R8): the model's own field, which no step writes (DESIGN CHOICE, log 1). -/
  impl : Impl
  /-- `ACC` (R13). -/
  acc : Word
  /-- `CNT` (R16); when `IMPL = TABLE` it "is the constant `0`". -/
  cnt : BitVec 4
  /-- The port samples of the rising edges to come, next first: the model's own field (DESIGN CHOICE, log 2). -/
  inputs : List Ports
  /-- `none` once a reset edge has been applied, "a premise of every claim" (D10); before it, the number of edges since power-up (R24):
  the model's own field, which numbers the free values of that time (DESIGN CHOICE, log 8). -/
  preReset : Option Nat
  deriving DecidableEq, Repr

/-- Why the machine faults: it never does, "the set of exception causes is empty" (R76, log 18). -/
inductive Fault where
  deriving DecidableEq, Repr

/-- Why a step has no next state. -/
inductive Refusal where
  /-- Raised by an arm of `exec` whose instruction has no meaning yet; none has it now. Safe: nothing can be proved of what would follow. -/
  | notModelled (mnemonic : String)
  /-- `refuse(reserved_op)`, raised by an accepted `RSVD` (R47, R59, R82). Safe: it "errs toward making claims unprovable" (log 9). -/
  | reservedOp
  deriving DecidableEq, Repr

/-- The state after a reset edge (R23, R89) of a block built as `impl`, with no further edge scheduled. -/
def State.resetOf (impl : Impl) : State :=
  { impl := impl, acc := 0xFFFFFFFF#32, cnt := 0#4, inputs := [], preReset := none }

/-- The machine right after reset (R23). DESIGN CHOICE (log 1): built as the table-driven block, the one the source describes;
the spec leaves `IMPL` open. -/
def State.reset : State := State.resetOf .table

/-- `CNT` before the first reset: a free value where it exists, and "the constant `0`" where `IMPL = TABLE` (R16, R24). -/
def unsetCnt (impl : Impl) (n : Nat) : BitVec 4 :=
  match impl with
  | .table => 0#4
  | .bitserial => Config.preResetCnt n

/-- The machine at power-up, before any reset edge (R24): `ACC`, `CNT`, and with them `ready` and `crc`, are free values (log 8). -/
def State.powerUp (impl : Impl) (inputs : List Ports) : State :=
  { impl := impl, acc := Config.preResetAcc impl 0, cnt := unsetCnt impl 0, inputs := inputs, preReset := some 0 }

end Sys2Proof.Machine
end

