-- ==== Sys2Proof/Machine/Flags.lean ====
section
/-! DEFINITION. The two outputs, functions of the state (R14, R15 10_state.md). There is no other flag (R19), and no command reads one. -/

namespace Sys2Proof.Machine

/-- `ready` (R15): constant `1` when `IMPL = TABLE`, `CNT = 0` when `IMPL = BITSERIAL`; before the first reset any value on either
(R24, U2), a free value (log 8). -/
def State.ready (s : State) : Bool :=
  match s.preReset, s.impl with
  | some n, impl => Config.preResetReady impl n
  | none, .table => true
  | none, .bitserial => s.cnt == 0#4

/-- The level on the `crc` wire, `ACC ^ 0xFFFFFFFF`, driven at all times (R14). -/
def State.crcWire (s : State) : Word := s.acc ^^^ Config.xorOut

/-- `crc` as the host may use it: the wire where `ready = 1`, and any value where `ready = 0` (R14, R98, U3), a free value (log 7);
before the first reset any value (R24, U2), a free value (log 8). -/
def State.crc (s : State) : Word :=
  match s.preReset with
  | some n => Config.preResetCrc s.impl n
  | none => if s.ready then s.crcWire else Config.busyCrc s.acc s.cnt

end Sys2Proof.Machine
end

