-- ==== Sys2Proof/WellFormed.lean ====
section
/-! DEFINITION. What a command, a listing's word and a listing's character must satisfy (R42, R47, R50 30_encoding.md).
A command's `din` is a `Byte`, and every byte is legal with every `op` (R43), so no operand needs a check. -/

namespace Sys2Proof

/-- A command the host may have accepted, and that a listing can spell (R47, R50): every one but the reserved code. -/
def Instr.wellFormed (i : Instr) : Bool :=
  match i with
  | .nop => true
  | .init => true
  | .upd _ => true
  | .rsvd => false

/-- A number that is a command word: ten bits (R42). -/
def wordFits (w : Nat) : Bool := w < 1024

/-- A single printable ASCII character, as a byte operand in single quotes must be (R50). -/
def isPrintable (c : Char) : Bool := 0x20 ≤ c.toNat && c.toNat ≤ 0x7E

end Sys2Proof
end

