-- ==== Sys2Proof/Decode.lean ====
section
/-! DEFINITION. Decoding and encoding of command words (R42 to R48 30_encoding.md), and of a listing of them as bytes.
The block stores no command word (R42): the bytes are the model's carrier of a listing, two per command, low byte first (DESIGN CHOICE, log 5). -/

namespace Sys2Proof

/-- `op = CW[9:8]` (R43). -/
def opField (w : CommandWord) : OpCode := w.extractLsb' 8 2

/-- `din = CW[7:0]` (R43). -/
def dinField (w : CommandWord) : Byte := w.extractLsb' 0 8

/-- `CW = {op, din}` (R42). -/
def commandWordOf (op : OpCode) (din : Byte) : CommandWord := op ++ din

/-- The opcode map (R45): the decoder looks at `CW[9:8]` only, and every code is assigned.
DEDUCED (log 6): a byte that the command ignores (R46) is not kept. -/
def decodeWord (w : CommandWord) : Instr :=
  if opField w = 0b00#2 then .nop
  else if opField w = 0b01#2 then .init
  else if opField w = 0b10#2 then .upd (dinField w)
  else .rsvd

/-- The canonical command word of a command (R46: `0x000`, `0x100`; R57: `0x200 + din`; R59: the first of `0x300 .. 0x3FF`). -/
def encodeWord (i : Instr) : CommandWord :=
  match i with
  | .nop => 0x000#10
  | .init => 0x100#10
  | .upd din => commandWordOf 0b10#2 din
  | .rsvd => 0x300#10

/-- Why bytes hold no command. -/
inductive DecodeError where
  /-- Fewer than the two bytes of a command. -/
  | truncated
  /-- The second byte has a bit above `op`: the ten bits of R42 are all a command word has. -/
  | notACommandWord
  deriving DecidableEq, Repr

/-- The command word in two bytes, low byte first; none where a bit above the ten is set (log 5). -/
def wordOfBytes (low high : Byte) : Option CommandWord :=
  if high.extractLsb' 2 6 = 0#6 then some (commandWordOf (high.extractLsb' 0 2) low) else none

/-- The two bytes of a command word, low byte first (log 5). -/
def bytesOfWord (w : CommandWord) : List Byte := [dinField w, (opField w).zeroExtend 8]

/-- The first command of a listing's bytes and the bytes after it. -/
def decode (bytes : List Byte) : Except DecodeError (Instr × List Byte) :=
  match bytes with
  | low :: high :: rest =>
    match wordOfBytes low high with
    | some w => .ok (decodeWord w, rest)
    | none => .error .notACommandWord
  | _ => .error .truncated

/-- All the commands of a listing's bytes, in order. There are no prefixes and no longer forms (R48). -/
def decodeListing (bytes : List Byte) : Except DecodeError (List Instr) :=
  match bytes with
  | [] => .ok []
  | [_] => .error .truncated
  | low :: high :: rest =>
    match wordOfBytes low high, decodeListing rest with
    | some w, .ok is => .ok (decodeWord w :: is)
    | some _, .error e => .error e
    | none, _ => .error .notACommandWord

/-- The bytes of a command. -/
def encode (i : Instr) : List Byte := bytesOfWord (encodeWord i)

/-- The bytes of a listing. -/
def encodeListing (is : List Instr) : List Byte := is.flatMap encode

/-- The two bytes of a number numbered as the opcode table numbers its bits, of which `nbits` are given and the rest are 0. -/
def tableWordBytes (nbits w : Nat) : List Byte :=
  let v := w % 2 ^ nbits
  [BitVec.ofNat 8 v, BitVec.ofNat 8 (v / 256)]

/-- The command the decoder reads from an instruction whose bits are `w` (bit 0 is `CW[0]`). -/
def decodeTableWord (nbits w : Nat) : Option Instr :=
  match decode (tableWordBytes nbits w) with
  | .ok (i, _) => some i
  | .error _ => none

end Sys2Proof
end

