-- ==== Sys2Proof/Machine/Operands.lean ====
section
/-! DEFINITION. How a command's operand and a port sample are read (R42, R44 30_encoding.md). -/

namespace Sys2Proof.Machine

/-- `zext_32(b)`, that is `{0x000000, b}` (R44). -/
def zext32 (b : Byte) : Word := b.zeroExtend 32

/-- The low byte `a[7:0]` of a word. -/
def lowByte (a : Word) : Byte := a.extractLsb' 0 8

/-- The table index of an `UPD`, `a[7:0] ^ b`, 8 bits (R44, R53). -/
def tableIndex (a : Word) (b : Byte) : Byte := lowByte a ^^^ b

/-- The command word of a port sample, `{op, din}` (R42). -/
def Ports.commandWord (p : Ports) : CommandWord := commandWordOf p.op p.din

/-- The command a port sample carries. -/
def Ports.command (p : Ports) : Instr := decodeWord p.commandWord

/-- The sample that presents a command word, without reset (R41, R42). -/
def Ports.ofWord (w : CommandWord) : Ports := { rst := false, op := opField w, din := dinField w }

/-- The sample that presents a command in its canonical word. -/
def Ports.drive (i : Instr) : Ports := Ports.ofWord (encodeWord i)

/-- The sample of a reset edge, which has no command word (R49). -/
def Ports.resetting : Ports := { rst := true, op := 0b00#2, din := 0x00#8 }

end Sys2Proof.Machine
end

