-- ==== Sys2Proof/Machine/Ops.lean ====
section
/-! DEFINITION. The named operations of the block: the byte step, the writes of `ACC` and `CNT`, reset, the busy step, and the host's
port samples. The block takes no exception and returns from none (R76, R80, R81 60_exceptions.md), so there is no such operation here;
its one abnormal outcome, the refusal of the reserved code, is `refuseReserved`. -/

namespace Sys2Proof.Machine

/-- `upd` (R53): `(a >> 8) ^ T[a[7:0] ^ b]`. -/
def updWord (a : Word) (b : Byte) : Word := (a >>> 8) ^^^ tableWord (tableIndex a b)

/-- `ACC <- v`. -/
def State.setAcc (s : State) (v : Word) : State := { s with acc := v }

/-- `CNT <- v`. -/
def State.setCnt (s : State) (v : BitVec 4) : State := { s with cnt := v }

/-- `ACC <- 0xFFFFFFFF`, the effect of `INIT` (R56). -/
def State.startMessage (s : State) : State := s.setAcc Config.initAcc

/-- The effect of an accepted `UPD` at its edge: the whole byte when `IMPL = TABLE` (R95), the XOR of the byte and eight steps owed when
`IMPL = BITSERIAL` (R96). -/
def State.feed (s : State) (din : Byte) : State :=
  match s.impl with
  | .table => s.setAcc (updWord s.acc din)
  | .bitserial => (s.setAcc (s.acc ^^^ zext32 din)).setCnt (BitVec.ofNat 4 (Config.latUpd .bitserial))

/-- A reset edge (R89): `ACC <- 0xFFFFFFFF`, `CNT <- 0`; nothing else happens. From here on "every rule of this spec holds" (R93). -/
def State.resetEdge (s : State) : State := { (s.setAcc Config.initAcc).setCnt 0#4 with preReset := none }

/-- An edge without reset before the first reset edge, the `n`-th since power-up: `ACC` and `CNT` are still unspecified after it, whatever
the command was (R24, R93), so they are free values anew (log 8). -/
def State.stayUnset (s : State) (n : Nat) : State :=
  { (s.setAcc (Config.preResetAcc s.impl (n + 1))).setCnt (unsetCnt s.impl (n + 1)) with preReset := some (n + 1) }

/-- A busy step (R96): `ACC <- bitstep(ACC)`, `CNT <- CNT - 1`. -/
def State.busyStep (s : State) : State := (s.setAcc (bitstep s.acc)).setCnt (s.cnt - 1#4)

/-- `refuse(reserved_op)` (R47, R59): no next state. -/
def refuseReserved (_s : State) : Host.Outcome State Fault Refusal := .refused .reservedOp

/-- The port sample of the next rising edge: the next one scheduled, and the idle host where none is (DESIGN CHOICE, log 3). -/
def State.presented (s : State) : Ports := s.inputs.headD Ports.idle

/-- The next rising edge's sample is used up (log 2). -/
def State.consumed (s : State) : State := { s with inputs := s.inputs.tail }

/-- The command word `w` is what the host presents at the next rising edge, in place of what it had scheduled for it; a reset has been
applied and no busy step is owed, so that the command is accepted there (log 4). -/
def State.presenting (s : State) (w : CommandWord) : State :=
  { s with cnt := 0#4, inputs := Ports.ofWord w :: s.inputs.tail, preReset := none }

/-- The command word in the low ten bits of a number numbered as the opcode table numbers its bits. -/
def commandWordOfNat (nbits w : Nat) : CommandWord := BitVec.ofNat 10 (w % 2 ^ nbits)

end Sys2Proof.Machine
end

