-- ==== Sys2Proof/Machine/Commands.lean ====
section
/-! DEFINITION. The meaning of each command once it is ACCEPTED (R55 to R59 40_accumulator_commands.md). Whether it is accepted
(R54) is decided by `edge`, in Machine/Edge.lean, before any of these runs (DEDUCED, log 12). -/

namespace Sys2Proof.Machine

/-- `NOP` (R55): `ACC <- ACC`. -/
def execNop (s : State) : Host.Outcome State Fault Refusal := .next s

/-- `INIT` (R56): `ACC <- 0xFFFFFFFF`, whatever `ACC` held. -/
def execInit (s : State) : Host.Outcome State Fault Refusal := .next s.startMessage

/-- `UPD` (R57): feed one byte. -/
def execUpd (din : Byte) (s : State) : Host.Outcome State Fault Refusal := .next (s.feed din)

/-- `RSVD` (R59): "It has no semantics." -/
def execRsvd (s : State) : Host.Outcome State Fault Refusal := refuseReserved s

end Sys2Proof.Machine
end

