-- ==== Sys2Proof/Machine/Dispatch.lean ====
section
/-! DEFINITION. One arm per command: the meaning of an accepted command (R54 case 3, 40_accumulator_commands.md). -/

namespace Sys2Proof.Machine

def exec (i : Instr) (s : State) : Host.Outcome State Fault Refusal :=
  match i with
  | .nop => Sys2Proof.Machine.execNop s
  | .init => Sys2Proof.Machine.execInit s
  | .upd din => Sys2Proof.Machine.execUpd din s
  | .rsvd => Sys2Proof.Machine.execRsvd s

end Sys2Proof.Machine
end

