-- ==== Sys2Proof/Machine/Edge.lean ====
section
/-! DEFINITION. One rising edge of `clk` with given port levels, and several in a row (R54 40_accumulator_commands.md, R79
60_exceptions.md, R95, R96 70_reset_and_hazards.md), and before the first reset (R24 10_state.md, R93). -/

namespace Sys2Proof.Machine

/-- An edge without reset before the first reset edge, the `n`-th since power-up (R24, R93, log 8): everything stays unspecified; and
as `ready` may be 1 there, a reserved code is one that may be accepted (R47). -/
def edgeBeforeReset (n : Nat) (p : Ports) (s : State) : Host.Outcome State Fault Refusal :=
  if s.ready && !p.command.wellFormed then refuseReserved s
  else .next (s.stayUnset n)

/-- One rising edge (R54), tested in the spec's order: reset; the busy step, at which `op` and `din` are not looked at; the command. The
last two are rules that hold once a reset edge has been applied (R93). -/
def edge (p : Ports) (s : State) : Host.Outcome State Fault Refusal :=
  if p.rst then .next s.resetEdge
  else
    match s.preReset with
    | some n => edgeBeforeReset n p s
    | none =>
      if !s.ready then .next s.busyStep
      else exec p.command s

/-- Rising edges in a row. A refusal ends them: it "is never cleared by later commands" (R47). -/
def runEdges (ps : List Ports) (s : State) : Host.Outcome State Fault Refusal :=
  match ps with
  | [] => .next s
  | p :: rest =>
    match edge p s with
    | .next t => runEdges rest t
    | .fault f => .fault f
    | .refused r => .refused r

end Sys2Proof.Machine
end

