-- ==== Sys2Proof/Machine/Step.lean ====
section
/-! DEFINITION. One step of the machine is one rising edge of `clk` with the port levels the host presents at it (R11 00_scope.md, R41
30_encoding.md). The block has no program counter and fetches nothing (R20 10_state.md, R40 20_memory.md): `inputs` holds what it samples. -/

namespace Sys2Proof.Machine

/-- One rising edge, with the next port sample. -/
def step (s : State) : Host.Outcome State Fault Refusal := edge s.presented s.consumed

/-- `s` with the command word `w` presented at the next rising edge, and accepted there (log 4). -/
def State.withFetchWord (s : State) (nbits w : Nat) : State := s.presenting (commandWordOfNat nbits w)

end Sys2Proof.Machine
end

