-- ==== Sys2Proof/Machine/Assembler.lean ====
section
/-! DEFINITION. The spec's own notation for programs (R50, R51 30_encoding.md) and a host that runs one on the block: it holds each
command until the edge that accepts it (R50, R97 70_reset_and_hazards.md). -/

namespace Sys2Proof.Machine

/-- A byte operand (R50): two hexadecimal digits with `0x`, or a printable ASCII character in single quotes. -/
inductive ByteOperand where
  | hex (b : Byte)
  | char (c : Char)
  deriving DecidableEq, Repr

/-- The character of a byte operand is printable ASCII (R50). -/
def ByteOperand.wellFormed (o : ByteOperand) : Bool :=
  match o with
  | .hex _ => true
  | .char c => isPrintable c

/-- The byte an operand stands for: a character means its ASCII code (R50). -/
def ByteOperand.value (o : ByteOperand) : Byte :=
  match o with
  | .hex b => b
  | .char c => BitVec.ofNat 8 c.toNat

/-- A line of a listing (R50). The reserved code has none. -/
inductive Line where
  | reset
  | nop
  | init
  | upd (operand : ByteOperand)
  | read (name : String)
  deriving DecidableEq, Repr

/-- The operand of a line is well formed. -/
def Line.wellFormed (l : Line) : Bool :=
  match l with
  | .reset => true
  | .nop => true
  | .init => true
  | .upd o => o.wellFormed
  | .read _ => true

/-- The command of a line (R50): `RESET` and `READ` have no command word. -/
def Line.command? (l : Line) : Option Instr :=
  match l with
  | .reset => none
  | .nop => some .nop
  | .init => some .init
  | .upd o => some (.upd o.value)
  | .read _ => none

/-- A hexadecimal digit, upper case as the spec's listings have it (log 14). -/
def hexDigit (d : BitVec 4) : String :=
  String.singleton (['0', '1', '2', '3', '4', '5', '6', '7', '8', '9', 'A', 'B', 'C', 'D', 'E', 'F'].getD d.toNat '0')

/-- The spelling of a byte operand (R50). -/
def ByteOperand.text (o : ByteOperand) : String :=
  match o with
  | .hex b => "0x" ++ hexDigit (b.extractLsb' 4 4) ++ hexDigit (b.extractLsb' 0 4)
  | .char c => String.singleton (Char.ofNat 39) ++ String.singleton c ++ String.singleton (Char.ofNat 39)

/-- The spelling of a line (R50): mnemonics in upper case. -/
def Line.text (l : Line) : String :=
  match l with
  | .reset => "RESET"
  | .nop => "NOP"
  | .init => "INIT"
  | .upd o => "UPD " ++ o.text
  | .read name => "READ -> " ++ name

/-- `FEED b0 b1 ... b(n-1)` (R51). -/
def feedLines (bytes : List ByteOperand) : List Line := bytes.map Line.upd

/-- `FEED "text"` (R51): the ASCII codes of the characters, in order. -/
def feedTextLines (text : List Char) : List Line := feedLines (text.map ByteOperand.char)

/-- `CHECKSUM b0 ... b(n-1) -> name` (R51). -/
def checksumLines (bytes : List ByteOperand) (name : String) : List Line :=
  [Line.init] ++ feedLines bytes ++ [Line.read name]

/-- `CHUNKCRC t0 t1 t2 t3 ; p0 ... p(L-1) -> name` (R51). -/
def chunkCrcLines (t0 t1 t2 t3 : ByteOperand) (payload : List ByteOperand) (name : String) : List Line :=
  checksumLines ([t0, t1, t2, t3] ++ payload) name

/-- A line or a pseudo-instruction (R51). -/
inductive Pseudo where
  | line (l : Line)
  | feed (bytes : List ByteOperand)
  | feedText (text : List Char)
  | checksum (bytes : List ByteOperand) (name : String)
  | chunkCrc (t0 t1 t2 t3 : ByteOperand) (payload : List ByteOperand) (name : String)
  deriving DecidableEq, Repr

/-- The expansion of a pseudo-instruction (R51). None holds the reserved code, which no line spells. -/
def Pseudo.expand (p : Pseudo) : List Line :=
  match p with
  | .line l => [l]
  | .feed bytes => feedLines bytes
  | .feedText text => feedTextLines text
  | .checksum bytes name => checksumLines bytes name
  | .chunkCrc t0 t1 t2 t3 payload name => chunkCrcLines t0 t1 t2 t3 payload name

/-- Byte operands, each after a space (R51). -/
def operandsText (bytes : List ByteOperand) : String :=
  match bytes with
  | [] => ""
  | o :: rest => " " ++ o.text ++ operandsText rest

/-- The spelling of a pseudo-instruction (R51). -/
def Pseudo.text (p : Pseudo) : String :=
  match p with
  | .line l => l.text
  | .feed bytes => "FEED" ++ operandsText bytes
  | .feedText text => "FEED " ++ String.singleton (Char.ofNat 34) ++ String.ofList text ++ String.singleton (Char.ofNat 34)
  | .checksum bytes name => "CHECKSUM" ++ operandsText bytes ++ " -> " ++ name
  | .chunkCrc t0 t1 t2 t3 payload name =>
    "CHUNKCRC" ++ operandsText [t0, t1, t2, t3] ++ " ;" ++ operandsText payload ++ " -> " ++ name

/-- The busy edges before the block accepts again (R96, R103), once a reset has been applied, as the host must see to (R88 H-1). -/
def State.busyEdges (s : State) : Nat :=
  match s.impl with
  | .table => 0
  | .bitserial => s.cnt.toNat

/-- The samples a host presents for a line, from a state: a command is held until an edge accepts it (R50, R97), a reset takes one
edge (R49), and a read waits with `NOP`s for `ready = 1` and takes no edge of its own (R50, R98). -/
def linePorts (s : State) (l : Line) : List Ports :=
  match l with
  | .reset => [Ports.resetting]
  | .nop => List.replicate (s.busyEdges + 1) (Ports.drive .nop)
  | .init => List.replicate (s.busyEdges + 1) (Ports.drive .init)
  | .upd o => List.replicate (s.busyEdges + 1) (Ports.drive (.upd o.value))
  | .read _ => List.replicate s.busyEdges Ports.idle

/-- A value the host has sampled, under the name it calls it by (R50). -/
structure Reading where
  name : String
  value : Word
  deriving DecidableEq, Repr

/-- What a line samples in the state its edges lead to: `crc`, and nothing is changed (R50, R67). -/
def lineReadings (l : Line) (s : State) : List Reading :=
  match l with
  | .read name => [{ name := name, value := s.crc }]
  | .reset => []
  | .nop => []
  | .init => []
  | .upd _ => []

/-- A host runs a listing on the block: the state it leaves and the values it sampled, oldest first, after those it had. -/
def runLines (ls : List Line) (s : State) (had : List Reading) : Host.Outcome (State × List Reading) Fault Refusal :=
  match ls with
  | [] => .next (s, had)
  | l :: rest =>
    match runEdges (linePorts s l) s with
    | .next t => runLines rest t (had ++ lineReadings l t)
    | .fault f => .fault f
    | .refused r => .refused r

end Sys2Proof.Machine
end

