-- ==== Sys2Proof/Machine/Checksum.lean ====
section
/-! DEFINITION. What a sequence of commands computes (R64, R66 41_checksum_operation.md): the source's function, and the message that
the commands accepted so far amount to. -/

namespace Sys2Proof.Machine

/-- The fold of `upd` over bytes, from an accumulator (R64, R68). -/
def feedAll (a : Word) (bytes : List Byte) : Word := bytes.foldl updWord a

/-- `acc_after` (R64): the fold from `0xFFFFFFFF`. -/
def accAfter (bytes : List Byte) : Word := feedAll Config.initAcc bytes

/-- `checksum` (R64): the accumulator after all the bytes, every bit inverted. -/
def checksum (bytes : List Byte) : Word := accAfter bytes ^^^ Config.xorOut

/-- The message after an accepted command, given the message before it: "the sequence of `din` values of the `UPD` commands accepted
since the most recent accepted `INIT` or reset edge" (R66). -/
def messageAfterCommand (i : Instr) (m : List Byte) : List Byte :=
  match i with
  | .nop => m
  | .init => []
  | .upd din => m ++ [din]
  | .rsvd => m

/-- The message after one rising edge (R54, R66): a reset empties it, and a busy step leaves it. Before the first reset there is none to
speak of (R93), and the given one is left. -/
def messageAfterEdge (p : Ports) (s : State) (m : List Byte) : List Byte :=
  if p.rst then []
  else if s.preReset ≠ none then m
  else if !s.ready then m
  else messageAfterCommand p.command m

/-- The message after rising edges in a row, for as long as they have a meaning. -/
def messageAfterEdges (ps : List Ports) (s : State) (m : List Byte) : List Byte :=
  match ps with
  | [] => m
  | p :: rest =>
    match edge p s with
    | .next t => messageAfterEdges rest t (messageAfterEdge p s m)
    | .fault _ => m
    | .refused _ => m

end Sys2Proof.Machine
end

