-- ==== Sys2Proof/Machine/Consumer.lean ====
section
/-! DEFINITION. The consumer's contract with the block (R32 20_memory.md, R71 to R75 41_checksum_operation.md): which bytes of a chunk
are fed, how the result is serialised, and the comparison. These are facts of the consumer: the block neither checks nor signals them. -/

namespace Sys2Proof.Machine

/-- A 32-bit value as four bytes, most significant first (R32). -/
def bigEndian (w : Word) : List Byte :=
  [w.extractLsb' 24 8, w.extractLsb' 16 8, w.extractLsb' 8 8, w.extractLsb' 0 8]

/-- `{c0, c1, c2, c3}`, the 32-bit value of four received bytes (R74). -/
def assembleWord (c0 c1 c2 c3 : Byte) : Word := c0 ++ c1 ++ c2 ++ c3

/-- A chunk on the wire (R72): length, type code, payload, checksum field, each as received. -/
structure Chunk where
  length : Word
  t0 : Byte
  t1 : Byte
  t2 : Byte
  t3 : Byte
  payload : List Byte
  c0 : Byte
  c1 : Byte
  c2 : Byte
  c3 : Byte
  deriving DecidableEq, Repr

/-- The type code's bytes, as they stand on the wire (R71). -/
def Chunk.typeCode (c : Chunk) : List Byte := [c.t0, c.t1, c.t2, c.t3]

/-- The checksum field's bytes. -/
def Chunk.checksumField (c : Chunk) : List Byte := [c.c0, c.c1, c.c2, c.c3]

/-- The bytes of a chunk on the wire (R72). -/
def Chunk.wireBytes (c : Chunk) : List Byte := bigEndian c.length ++ c.typeCode ++ c.payload ++ c.checksumField

/-- The message of a chunk (R71): "type-code bytes ++ payload bytes". The length field and the checksum field are not fed (R72). -/
def Chunk.message (c : Chunk) : List Byte := c.typeCode ++ c.payload

/-- The chunk the consumer constructs (R74): its checksum field is `checksum(type ++ payload)`, most significant byte first. The length
field holds the payload's length, as far as its four bytes hold it (DESIGN CHOICE, log 17). -/
def Chunk.construct (t0 t1 t2 t3 : Byte) (payload : List Byte) : Chunk :=
  let w := checksum ([t0, t1, t2, t3] ++ payload)
  { length := BitVec.ofNat 32 payload.length
    t0 := t0, t1 := t1, t2 := t2, t3 := t3
    payload := payload
    c0 := w.extractLsb' 24 8, c1 := w.extractLsb' 16 8, c2 := w.extractLsb' 8 8, c3 := w.extractLsb' 0 8 }

/-- What the consumer's comparison says (R74). A mismatch carries both values; which the source calls expected and which actual is not
said (U10), so they are named by where they come from (log 17). -/
inductive Verdict where
  | intact
  | mismatch (computed received : Word)
  deriving DecidableEq, Repr

/-- The comparison of a value read from the block with the chunk's checksum field (R74). -/
def Chunk.compare (c : Chunk) (computed : Word) : Verdict :=
  let received := assembleWord c.c0 c.c1 c.c2 c.c3
  if computed = received then .intact else .mismatch computed received

/-- The verdict on a chunk whose message the block has summed (R74, R75). -/
def Chunk.verify (c : Chunk) : Verdict := c.compare (checksum c.message)

end Sys2Proof.Machine
end

