-- ==== Sys2Proof/Safety.lean ====
section
/-! DEFINITION. What counts as a safe run, and the relations claims are stated with: the host's duties H-3 and,
as the premise that a reset has been applied, H-1 (R88 60_exceptions.md, R24, D10), the invariant of the state (R16 10_state.md), and the abstraction to accepted commands (R16, R66 41_checksum_operation.md). -/

namespace Sys2Proof.Machine

/-- A sample that keeps duty H-3 in a state: `op = 11` only where `rst = 1` or `ready = 0` (R47, R88). -/
def Ports.dutiful (p : Ports) (s : State) : Bool :=
  p.rst || !s.ready || p.command.wellFormed

/-- The host keeps duty H-3 at every one of these edges. -/
def dutifulRun (ps : List Ports) (s : State) : Bool :=
  match ps with
  | [] => true
  | p :: rest =>
    p.dutiful s &&
      match edge p s with
      | .next t => dutifulRun rest t
      | .fault _ => true
      | .refused _ => true

/-- The edges end in a next state: a run that has a meaning throughout. -/
def RunsThrough (ps : List Ports) (s : State) : Prop := ∃ t, runEdges ps s = .next t

/-- A reset has been applied: the premise of every claim (R24, D10), and the host's duty H-1 done (R88). -/
abbrev State.ResetApplied (s : State) : Prop := s.preReset = none

/-- The invariant of the state: `CNT` is at most 8 once a reset has been applied, and `0` when `IMPL = TABLE` (R16). -/
abbrev State.Inv (s : State) : Prop := (s.ResetApplied → s.cnt.toNat ≤ 8) ∧ (s.impl = .table → s.cnt = 0#4)

/-- The accumulator once the steps still owed are done (R16, R58): `ACC` itself where none is owed. -/
def State.settled (s : State) : Word := bitsteps s.cnt.toNat s.acc

/-- The block has taken exactly the message `m` (R66): its settled accumulator is `acc_after(m)`. -/
abbrev State.Holds (s : State) (m : List Byte) : Prop := s.settled = accAfter m

end Sys2Proof.Machine
end

