-- ==== Sys2Proof/Certificates/Slice0/Obligations.lean ====
section
/-! DEFINITION. The statements made of the machine, for the provers. Each docstring names the rule of spec/ it formalises. The block has
no writable memory (R27, R29), so a frame speaks of `ACC`, `CNT` and the three fields of the model, which are all of the state.
`ResetApplied` is the premise that the spec gives every claim (R24, D10), as its rules hold once a reset edge has been applied (R93). -/

open Sys2Proof Sys2Proof.Machine

/-! ### Encoding -/

/-- R45, the complete opcode map: the match and mask of each row decide the command, and the decoder looks at `CW[9:8]` only. -/
def Obligations.OpcodeMapByMatchAndMask : Prop :=
  (∀ w : CommandWord,
    (decodeWord w = .nop ↔ w &&& 0x300#10 = 0x000#10) ∧
    (decodeWord w = .init ↔ w &&& 0x300#10 = 0x100#10) ∧
    (decodeWord w = .upd (w.extractLsb' 0 8) ↔ w &&& 0x300#10 = 0x200#10) ∧
    (decodeWord w = .rsvd ↔ w &&& 0x300#10 = 0x300#10)) ∧
  ∀ w w' : CommandWord, w.extractLsb' 8 2 = w'.extractLsb' 8 2 → w.extractLsb' 8 2 ≠ 0b10#2 → decodeWord w = decodeWord w'

/-- Words written out from the encodings of R45, R46 and the listings of 95_test_vectors.md P1, NP2, I2, X1. -/
def Obligations.ListedWordsDecode : Prop :=
  decodeWord 0b0000000000#10 = .nop ∧ decodeWord 0b0010100101#10 = .nop ∧
  decodeWord 0b0100000000#10 = .init ∧ decodeWord 0b0111111111#10 = .init ∧
  decodeWord 0b1001100001#10 = .upd 0x61#8 ∧ decodeWord 0b1011111111#10 = .upd 0xFF#8 ∧
  decodeWord 0b1100000000#10 = .rsvd ∧ decodeWord 0b1111111111#10 = .rsvd

/-- R46: outside `UPD` the byte on `din` has no effect on any state or output, and the canonical words are `0x000` and `0x100`. -/
def Obligations.DinIgnoredUnlessUpd : Prop :=
  (∀ (op : OpCode) (d d' : Byte) (r : Bool) (s : State), op ≠ 0b10#2 →
    edge { rst := r, op := op, din := d } s = edge { rst := r, op := op, din := d' } s) ∧
  (∀ w : CommandWord, w.toNat ≤ 0x0FF → decodeWord w = .nop) ∧
  (∀ w : CommandWord, 0x100 ≤ w.toNat → w.toNat ≤ 0x1FF → decodeWord w = .init) ∧
  encodeWord .nop = 0x000#10 ∧ encodeWord .init = 0x100#10

/-- R42, R43: a command word is `op` above `din`, every word is one, and the word of `UPD` is `0x200 + din`. -/
def Obligations.CommandWordIsOpThenDin : Prop :=
  (∀ (op : OpCode) (d : Byte),
    opField (commandWordOf op d) = op ∧ dinField (commandWordOf op d) = d ∧
    (commandWordOf op d).toNat = 256 * op.toNat + d.toNat) ∧
  (∀ w : CommandWord, commandWordOf (opField w) (dinField w) = w) ∧
  ∀ d : Byte, (encodeWord (.upd d)).toNat = 0x200 + d.toNat

/-- Decode and encode agree, on every command and on every listing. The two bytes of a word are the model's choice (log 5). -/
def Obligations.ListingRoundTrip : Prop :=
  (∀ (i : Instr) (rest : List Byte), decode (encode i ++ rest) = .ok (i, rest)) ∧
  ∀ is : List Instr, decodeListing (encodeListing is) = .ok is ∧ (encodeListing is).length = 2 * is.length

/-- What is no listing is rejected by name, and what is one decodes to as many commands as it has pairs of bytes. The carrier is the
model's choice (log 5). -/
def Obligations.ListingRejectsByName : Prop :=
  decode [] = .error .truncated ∧
  (∀ b : Byte, decode [b] = .error .truncated ∧ decodeListing [b] = .error .truncated) ∧
  (∀ (low high : Byte) (rest : List Byte), 4 ≤ high.toNat →
    decode (low :: high :: rest) = .error .notACommandWord ∧ decodeListing (low :: high :: rest) = .error .notACommandWord) ∧
  ∀ (bytes : List Byte) (is : List Instr), decodeListing bytes = .ok is → bytes.length = 2 * is.length

/-! ### One edge -/

/-- A step runs the decoded command: at an accepting edge, `step` is `exec` of the command on the ports, with that sample used up (the
schedule is the model's choice, log 2). The word the host reads off the opcode table is such a command (log 4). -/
def Obligations.StepRunsPresentedCommand : Prop :=
  (∀ (s : State) (p : Ports) (rest : List Ports), s.ResetApplied → s.inputs = p :: rest → p.rst = false → s.ready = true →
    step s = exec (decodeWord (commandWordOf p.op p.din)) { s with inputs := rest }) ∧
  ∀ (s : State) (w : Nat), wordFits w = true → ∃ i, decodeTableWord 16 w = some i ∧
    step (s.withFetchWord 16 w) = exec i { s with cnt := 0#4, inputs := s.inputs.tail, preReset := none }

/-- R54, R79: the three things an edge can be, in their order; a reset at the edge of a reserved code is a reset. -/
def Obligations.EdgePriority : Prop :=
  ∀ (p : Ports) (s : State),
    (p.rst = true → edge p s = .next { s with acc := 0xFFFFFFFF#32, cnt := 0#4, preReset := none }) ∧
    (s.ResetApplied → p.rst = false → s.ready = false → s.impl = .bitserial ∧
      edge p s = .next { s with acc := bitstep s.acc, cnt := s.cnt - 1#4 }) ∧
    (s.ResetApplied → p.rst = false → s.ready = true → edge p s = exec (decodeWord (commandWordOf p.op p.din)) s)

/-- R89, R23: what a reset edge leaves, whatever `op` and `din` are and whatever the state was. -/
def Obligations.ResetEdgeLeavesInitialState : Prop :=
  ∀ (op : OpCode) (d : Byte) (s : State), ∃ t : State,
    edge { rst := true, op := op, din := d } s = .next t ∧
    t.acc = 0xFFFFFFFF#32 ∧ t.cnt = 0#4 ∧ t.ready = true ∧ t.crc = 0x00000000#32 ∧
    t.ResetApplied ∧ t.impl = s.impl ∧ t.inputs = s.inputs ∧ exec .init t = .next t

/-- R90, of the model's edges: holding `rst` for several edges is the same as one. -/
def Obligations.ResetHeldIsResetOnce : Prop :=
  ∀ (p : Ports) (ps : List Ports) (s : State), p.rst = true → (∀ q ∈ ps, q.rst = true) → runEdges (p :: ps) s = edge p s

/-- R91: a reset edge abandons a busy `UPD`, and nothing else does: a busy block looks at no command. -/
def Obligations.OnlyResetInterruptsBusy : Prop :=
  ∀ (s : State) (op : OpCode) (d : Byte), s.ResetApplied → s.impl = .bitserial → s.cnt ≠ 0#4 →
    edge { rst := true, op := op, din := d } s = .next { s with acc := 0xFFFFFFFF#32, cnt := 0#4 } ∧
    edge { rst := false, op := op, din := d } s = .next { s with acc := bitstep s.acc, cnt := s.cnt - 1#4 }

/-- R93, R24: from power-up, with whatever the registers hold, one reset edge leaves the state after reset; and a run leaves the time
before the first reset exactly by a reset edge, and never returns to it. -/
def Obligations.PowerUpNeedsOneReset : Prop :=
  (∀ (impl : Impl) (p : Ports), p.rst = true → edge p (State.powerUp impl []) = .next (State.resetOf impl)) ∧
  ∀ (ps : List Ports) (s t : State), runEdges ps s = .next t → (t.ResetApplied ↔ s.ResetApplied ∨ ∃ p ∈ ps, p.rst = true)

/-- Of the model's edges before the first reset (log 8), where R24 and U2 give the registers and outputs no value: an edge without reset is
the refusal where a reserved code meets `ready = 1`, and else leads to a state that is still before the first reset, with `IMPL` and the
schedule as they were. It says nothing of `ACC`, `CNT`, `ready` and `crc` there. -/
def Obligations.EdgeWithoutResetStaysUnreset : Prop :=
  ∀ (s : State) (n : Nat) (p : Ports), s.preReset = some n → p.rst = false →
    if p.op = 0b11#2 ∧ s.ready = true then edge p s = .refused .reservedOp
    else ∃ t : State, edge p s = .next t ∧ t.preReset = some (n + 1) ∧ t.impl = s.impl ∧ t.inputs = s.inputs

/-- R23: the state after reset, for either implementation. `State.reset` itself is the table-driven block, the model's choice (log 1). -/
def Obligations.ResetStateValues : Prop :=
  (∀ impl : Impl, (State.resetOf impl).acc = 0xFFFFFFFF#32 ∧ (State.resetOf impl).cnt = 0#4 ∧
    (State.resetOf impl).ready = true ∧ (State.resetOf impl).crc = 0x00000000#32 ∧ (State.resetOf impl).impl = impl ∧
    (State.resetOf impl).ResetApplied) ∧
  State.reset = State.resetOf .table

/-- R95: the table-driven block at every edge. -/
def Obligations.TableBlockAtAnEdge : Prop :=
  ∀ (p : Ports) (s : State), s.ResetApplied → s.impl = .table →
    s.ready = true ∧
    edge p s =
      (if p.rst = true then .next { s with acc := 0xFFFFFFFF#32, cnt := 0#4 }
       else if p.op = 0b00#2 then .next s
       else if p.op = 0b01#2 then .next { s with acc := 0xFFFFFFFF#32 }
       else if p.op = 0b10#2 then .next { s with acc := (s.acc >>> 8) ^^^ tableWord (s.acc.extractLsb' 0 8 ^^^ p.din) }
       else .refused .reservedOp)

/-- R96: the bit-serial block at every edge; the busy edges of an `UPD` one by one; and the worked instance. -/
def Obligations.SerialBlockAtAnEdge : Prop :=
  (∀ (p : Ports) (s : State), s.ResetApplied → s.impl = .bitserial →
    (s.ready = true ↔ s.cnt = 0#4) ∧
    edge p s =
      (if p.rst = true then .next { s with acc := 0xFFFFFFFF#32, cnt := 0#4 }
       else if s.cnt ≠ 0#4 then .next { s with acc := bitstep s.acc, cnt := s.cnt - 1#4 }
       else if p.op = 0b00#2 then .next s
       else if p.op = 0b01#2 then .next { s with acc := 0xFFFFFFFF#32 }
       else if p.op = 0b10#2 then .next { s with acc := s.acc ^^^ p.din.zeroExtend 32, cnt := 8#4 }
       else .refused .reservedOp)) ∧
  (∀ (d : Byte) (ps : List Ports) (s : State), s.ResetApplied → s.impl = .bitserial → s.cnt = 0#4 → ps.length ≤ 8 →
    (∀ q ∈ ps, q.rst = false) → runEdges ({ rst := false, op := 0b10#2, din := d } :: ps) s =
      .next { s with acc := bitsteps ps.length (s.acc ^^^ d.zeroExtend 32), cnt := BitVec.ofNat 4 (8 - ps.length) }) ∧
  (∀ a : Word, ∀ d : Byte, bitsteps 8 (a ^^^ d.zeroExtend 32) = updWord a d) ∧
  (List.range 9).map (fun k => bitsteps k (0xFFFFFFFF#32 ^^^ (0x61#8).zeroExtend 32)) =
    [0xFFFFFF9E#32, 0x7FFFFFCF#32, 0xD2477CC7#32, 0x849B3D43#32, 0xAFF51D81#32, 0xBA420DE0#32, 0x5D2106F0#32, 0x2E908378#32,
      0x174841BC#32]

/-- R97: a command that is not accepted leaves no trace: the edge is the same whatever command was shown. -/
def Obligations.UnacceptedCommandLeavesNoTrace : Prop :=
  ∀ (r : Bool) (op op' : OpCode) (d d' : Byte) (s : State), s.ResetApplied → (r = true ∨ s.ready = false) →
    edge { rst := r, op := op, din := d } s = edge { rst := r, op := op', din := d' } s

/-- R97 and vector Q7: with `IMPL = TABLE` an `UPD` held for two edges feeds its byte twice. -/
def Obligations.TableBlockFeedsAHeldByteTwice : Prop :=
  ∀ (d : Byte) (s : State) (m : List Byte), s.ResetApplied → s.impl = .table → s.acc = accAfter m →
    runEdges [{ rst := false, op := 0b10#2, din := d }, { rst := false, op := 0b10#2, din := d }] s =
      .next { s with acc := accAfter (m ++ [d, d]) }

/-- The idle host: with no sample scheduled, a ready block stays as it is. The idle host is the model's choice (log 3). -/
def Obligations.IdleHostChangesNothing : Prop :=
  ∀ s : State, s.ResetApplied → s.inputs = [] → s.ready = true → step s = .next s

/-! ### The commands -/

/-- R55: an accepted `NOP` changes nothing, any number of them too, whatever `din` is; and the rule's example. The whole state is the
frame. -/
def Obligations.NopChangesNothing : Prop :=
  (∀ s : State, exec .nop s = .next s) ∧
  (∀ (s : State) (ds : List Byte), s.ResetApplied → s.ready = true →
    runEdges (ds.map fun d => { rst := false, op := 0b00#2, din := d }) s = .next s) ∧
  ∀ s : State, s.ResetApplied → s.ready = true → s.acc = 0x174841BC#32 → ∃ t : State,
    exec .nop s = .next t ∧ t.ready = true ∧ t.acc = 0x174841BC#32 ∧ t.crc = 0xE8B7BE43#32

/-- R56: an accepted `INIT` sets `ACC` to `0xFFFFFFFF` and changes nothing else, `ready` stays, `crc` is then `0`, and a second one, or
one right after reset, changes nothing. The rule's example is the case `ACC = 0x174841BC`. -/
def Obligations.InitStartsAMessage : Prop :=
  (∀ s : State, exec .init s = .next { s with acc := 0xFFFFFFFF#32 }) ∧
  (∀ (s : State) (d : Byte), s.ResetApplied → s.ready = true → ∃ t : State,
    edge { rst := false, op := 0b01#2, din := d } s = .next t ∧ t = { s with acc := 0xFFFFFFFF#32 } ∧
    t.ready = true ∧ t.crc = 0x00000000#32 ∧ exec .init t = .next t) ∧
  ∀ impl : Impl, exec .init (State.resetOf impl) = .next (State.resetOf impl)

/-- R57, R95: on the table-driven block an accepted `UPD` completes at its edge; nothing but `ACC` changes. -/
def Obligations.UpdOnTheTableBlock : Prop :=
  ∀ (d : Byte) (s : State), s.impl = .table →
    exec (.upd d) s = .next { s with acc := (s.acc >>> 8) ^^^ tableWord (s.acc.extractLsb' 0 8 ^^^ d) }

/-- R57, R96: on the bit-serial block an accepted `UPD` XORs the byte in and owes eight steps; nothing but `ACC` and `CNT` changes, and
the block is busy. -/
def Obligations.UpdOnTheSerialBlock : Prop :=
  ∀ (d : Byte) (s : State), s.impl = .bitserial → ∃ t : State,
    exec (.upd d) s = .next t ∧ t = { s with acc := s.acc ^^^ d.zeroExtend 32, cnt := 8#4 } ∧
    (s.ResetApplied → t.ready = false)

/-- R57: on either block, an accepted `UPD` followed by `LAT_UPD` edges without reset leaves `ACC = upd(ACC_before, din)`, `ready = 1` and
`crc` its inverse, and everything else as it was; before that the block is busy, and it is then ready for no shorter wait. -/
def Obligations.UpdCompletesAfterItsLatency : Prop :=
  ∀ (d : Byte) (ps : List Ports) (s : State), s.ResetApplied → s.ready = true → (∀ q ∈ ps, q.rst = false) →
    (ps.length = Config.latUpd s.impl → ∃ t : State,
      runEdges ({ rst := false, op := 0b10#2, din := d } :: ps) s = .next t ∧
      t = { s with acc := updWord s.acc d } ∧ t.ready = true ∧ t.crc = updWord s.acc d ^^^ 0xFFFFFFFF#32) ∧
    (ps.length < Config.latUpd s.impl → ∃ t : State,
      runEdges ({ rst := false, op := 0b10#2, din := d } :: ps) s = .next t ∧ t.ready = false)

/-- R59, R47: an accepted reserved code is refused by name, and one that is not accepted is harmless. -/
def Obligations.ReservedCodeIsRefused : Prop :=
  (∀ s : State, exec .rsvd s = .refused .reservedOp) ∧
  (∀ (s : State) (d : Byte), s.ready = true → edge { rst := false, op := 0b11#2, din := d } s = .refused .reservedOp) ∧
  (∀ (s : State) (d : Byte),
    edge { rst := true, op := 0b11#2, din := d } s = .next { s with acc := 0xFFFFFFFF#32, cnt := 0#4, preReset := none }) ∧
  ∀ (s : State) (d : Byte), s.ResetApplied → s.ready = false →
    edge { rst := false, op := 0b11#2, din := d } s = .next { s with acc := bitstep s.acc, cnt := s.cnt - 1#4 }

/-- R76, R82: a step faults never, and refuses exactly where a reserved code is accepted. -/
def Obligations.OnlyAnAcceptedReservedCodeStops : Prop :=
  ∀ s : State,
    (∀ f : Fault, step s ≠ .fault f) ∧
    ∀ r : Refusal, step s = .refused r ↔
      r = .reservedOp ∧ s.presented.rst = false ∧ s.ready = true ∧ s.presented.op = 0b11#2

/-- Derived from 60_exceptions.md section 4 (R82) and log 2: once a run meets a reserved code where it is accepted (`rst = 0`, `ready = 1`),
the run is refused for good, whatever the host presents later, resets and `INIT`s included. The second clause says the same of the machine's
own run of steps, whose schedule of samples (`inputs`) is the model's choice (log 2, DESIGN CHOICE). -/
def Obligations.RefusalIsNeverWashedOut : Prop :=
  ∀ (ps qs : List Ports) (s t : State) (d : Byte), runEdges ps s = .next t → t.ready = true →
    runEdges (ps ++ { rst := false, op := 0b11#2, din := d } :: qs) s = .refused .reservedOp ∧
    ∀ k : Nat, ps.length < k →
      Host.Core.run Sys2Proof.core k ({ s with inputs := ps ++ { rst := false, op := 0b11#2, din := d } :: qs } : State) =
        .refused .reservedOp

/-- The frame of the commands (R55 to R57): none writes `IMPL`, the host's samples or whether a reset has been applied, `NOP` writes nothing,
`INIT` writes `ACC` alone, and `UPD` writes `CNT` only on the bit-serial block. -/
def Obligations.CommandFrames : Prop :=
  ∀ (i : Instr) (s t : State), exec i s = .next t →
    t.impl = s.impl ∧ t.inputs = s.inputs ∧ t.preReset = s.preReset ∧
    (i = .nop → t.acc = s.acc) ∧ (t.cnt ≠ s.cnt → s.impl = .bitserial ∧ ∃ d, i = .upd d)

/-- R13: `ACC` is written only by reset, an accepted `INIT`, an accepted `UPD` and the busy steps. -/
def Obligations.OnlyTheseWriteTheAccumulator : Prop :=
  ∀ (s t : State), s.ResetApplied → step s = .next t → t.acc ≠ s.acc →
    s.presented.rst = true ∨ s.ready = false ∨ s.presented.op = 0b01#2 ∨ s.presented.op = 0b10#2

/-! ### Outputs -/

/-- R14, R15: `crc` is `ACC` inverted where `ready = 1`, and `ready` is constant on the table-driven block and `CNT = 0` on the other, once a
reset has been applied; before it both are free values (R24, log 8). -/
def Obligations.OutputsAreFunctionsOfState : Prop :=
  ∀ s : State,
    s.crcWire = s.acc ^^^ 0xFFFFFFFF#32 ∧ (∀ k : Nat, k < 32 → s.crcWire.getLsbD k = !s.acc.getLsbD k) ∧
    (s.ResetApplied → (s.ready = true → s.crc = s.crcWire) ∧
      (s.impl = .table → s.ready = true) ∧ (s.impl = .bitserial → (s.ready = true ↔ s.cnt = 0#4)))

/-- R103: from any state of the invariant, with `rst = 0` held, the block is ready after at most 8 edges, and what the host shows
meanwhile does not matter. -/
def Obligations.ReadyWithinEightEdges : Prop :=
  ∀ s : State, s.ResetApplied → s.Inv → ∃ k : Nat, k ≤ 8 ∧
    ∀ ps : List Ports, ps.length = k → (∀ q ∈ ps, q.rst = false) →
      ∃ t : State, runEdges ps s = .next t ∧ t.ready = true ∧ t.settled = s.settled ∧ t.acc = s.settled

/-! ### The arithmetic -/

/-- R52: the one-bit step, bit by bit, and its examples. -/
def Obligations.BitstepBitByBit : Prop :=
  (∀ c : Word,
    (∀ k : Nat, k < 31 → (bitstep c).getLsbD k = (c.getLsbD (k + 1) ^^ (c.getLsbD 0 && (0xEDB88320#32).getLsbD k))) ∧
    (bitstep c).getLsbD 31 = c.getLsbD 0) ∧
  bitstep 0x00000000#32 = 0x00000000#32 ∧ bitstep 0x00000001#32 = 0xEDB88320#32 ∧ bitstep 0x00000002#32 = 0x00000001#32 ∧
  bitstep 0x80000000#32 = 0x40000000#32 ∧ bitstep 0xFFFFFFFF#32 = 0x92477CDF#32

/-- R53: the one-byte step, its top byte, and its examples. -/
def Obligations.ByteStepByTable : Prop :=
  (∀ (a : Word) (b : Byte),
    updWord a b = (a >>> 8) ^^^ tableWord (a.extractLsb' 0 8 ^^^ b) ∧
    (updWord a b).extractLsb' 24 8 = (tableWord (a.extractLsb' 0 8 ^^^ b)).extractLsb' 24 8) ∧
  updWord 0xFFFFFFFF#32 0x61#8 = 0x174841BC#32 ∧ updWord 0x12345678#32 0x9A#8 = 0x4E16B702#32 ∧
  updWord 0x00000000#32 0x00#8 = 0x00000000#32

/-- R26 and section 6 of 20_memory.md: the table the machine reads is the listed one, and passes the spec's checks on it. -/
def Obligations.TableIsTheListedOne : Prop :=
  tableListing.length = Config.nTab ∧ Config.nTab = 256 ∧
  (∀ i : Byte, tableListing[i.toNat]? = some (tableWord i)) ∧
  tableWord 0x00#8 = 0x00000000#32 ∧ tableWord 0x01#8 = 0x77073096#32 ∧ tableWord 0x80#8 = 0xEDB88320#32 ∧
  tableWord 0xFF#8 = 0x2D02EF8D#32 ∧
  (∀ i j : Byte, (tableWord i).extractLsb' 24 8 = (tableWord j).extractLsb' 24 8 → i = j) ∧
  tableListing.foldl (fun x y => x ^^^ y) 0#32 = 0x00000000#32

/-- R58: the table form and the bit-serial form are the same function, for every accumulator and byte. -/
def Obligations.TableFormEqualsSerialForm : Prop :=
  ∀ (a : Word) (b : Byte), updWord a b = bitsteps 8 (a ^^^ b.zeroExtend 32)

/-- R61: the one-bit step is linear over XOR and a bijection. -/
def Obligations.BitstepLinearAndBijective : Prop :=
  (∀ x y : Word, bitstep (x ^^^ y) = bitstep x ^^^ bitstep y) ∧ Function.Bijective bitstep

/-- R61: the one-byte step is linear over XOR, a bijection of the accumulator for each byte, and so is the table linear; two different
accumulators never merge under the same bytes. -/
def Obligations.ByteStepLinearAndBijective : Prop :=
  (∀ (a1 a2 : Word) (b1 b2 : Byte), updWord (a1 ^^^ a2) (b1 ^^^ b2) = updWord a1 b1 ^^^ updWord a2 b2) ∧
  (∀ i j : Byte, tableWord (i ^^^ j) = tableWord i ^^^ tableWord j) ∧
  (∀ b : Byte, Function.Bijective fun a => updWord a b) ∧
  ∀ (m : List Byte) (a1 a2 : Word), feedAll a1 m = feedAll a2 m → a1 = a2

/-- R57, corner case: a zero byte leaves no accumulator as it is but zero. -/
def Obligations.ZeroByteFixesOnlyZero : Prop :=
  ∀ a : Word, updWord a 0x00#8 = a ↔ a = 0x00000000#32

/-! ### The checksum -/

/-- R64: `acc_after` and `checksum`. -/
def Obligations.ChecksumIsAFoldThenAnInversion : Prop :=
  accAfter [] = 0xFFFFFFFF#32 ∧
  (∀ (s : List Byte) (b : Byte), accAfter (s ++ [b]) = updWord (accAfter s) b) ∧
  ∀ s : List Byte, checksum s = accAfter s ^^^ 0xFFFFFFFF#32

/-- R65: the empty message. -/
def Obligations.EmptyMessageSumsToZero : Prop :=
  checksum [] = 0x00000000#32 ∧ accAfter [] = 0xFFFFFFFF#32

/-- R68: a message made of parts is fed part after part. -/
def Obligations.PartsAreFedPartAfterPart : Prop :=
  ∀ s t : List Byte, accAfter (s ++ t) = feedAll (accAfter s) t

/-- A consequence of R61: two messages that differ in exactly one byte have different checksums. -/
def Obligations.OneWrongByteChangesTheChecksum : Prop :=
  ∀ (before after : List Byte) (b b' : Byte), b ≠ b' → checksum (before ++ [b] ++ after) ≠ checksum (before ++ [b'] ++ after)

/-! ### Invariants and runs -/

/-- The invariant of R16 (`CNT` is at most 8 once a reset has been applied, and 0 on the table-driven block) is kept by every step, which
leaves `IMPL`, and a reset once applied stays applied. That a step uses up one sample of the schedule is the model's choice (log 2). -/
def Obligations.StepKeepsTheInvariant : Prop :=
  ∀ s t : State, s.Inv → step s = .next t →
    t.Inv ∧ t.impl = s.impl ∧ (s.ResetApplied → t.ResetApplied) ∧ t.inputs = s.inputs.tail

/-- The invariant holds after reset, and at power-up; after reset the block holds the empty message, for either implementation. -/
def Obligations.ResetMeetsTheInvariant : Prop :=
  (∀ impl : Impl, (State.resetOf impl).Inv ∧ (State.resetOf impl).Holds []) ∧ State.reset.Inv ∧ State.reset.Holds [] ∧
  ∀ (impl : Impl) (ps : List Ports), (State.powerUp impl ps).Inv

/-- R66, the invariant of the block: if a reset has been applied and the block holds the message `m`, then after a step it holds the message
that the edge makes of `m`, and where `ready = 1` the accumulator is `acc_after` of it and `crc` its checksum. The edge's sample is the next
of the schedule, which is the model's choice (log 2). -/
def Obligations.StepKeepsTheMessage : Prop :=
  ∀ (s t : State) (m : List Byte), s.ResetApplied → s.Inv → s.Holds m → step s = .next t →
    t.ResetApplied ∧ t.Inv ∧ t.Holds (messageAfterEdge s.presented s m) ∧
    (t.ready = true → t.acc = accAfter (messageAfterEdge s.presented s m) ∧ t.crc = checksum (messageAfterEdge s.presented s m))

/-- R12: after a reset edge, from any state at all, power-up too, for every sequence of samples that has a meaning, `crc` at `ready = 1` is the
checksum of the bytes accepted since the last accepted `INIT` or reset. -/
def Obligations.CrcIsTheChecksumAfterAnyRun : Prop :=
  ∀ (r : Ports) (ps : List Ports) (s t : State) (m : List Byte), r.rst = true → runEdges (r :: ps) s = .next t → t.ready = true →
    t.crc = checksum (messageAfterEdges (r :: ps) s m)

/-- R66, R70: one evaluation of `checksum` by `INIT`, the `UPD`s and a read completes from every state in which a reset has been applied, with
any history, on either implementation, and reads the checksum; with a `RESET` first, from every state at all. The host that runs the
listing, holding each command until it is accepted, is the model's choice (log 14). -/
def Obligations.TransactionComputesTheChecksum : Prop :=
  ∀ (s : State) (ops : List ByteOperand) (name : String),
    (s.ResetApplied → ∃ t : State,
      runLines (checksumLines ops name) s [] = .next (t, [{ name := name, value := checksum (ops.map ByteOperand.value) }]) ∧
      t.ready = true ∧ t.acc = accAfter (ops.map ByteOperand.value)) ∧
    ∃ t : State,
      runLines (.reset :: checksumLines ops name) s [] = .next (t, [{ name := name, value := checksum (ops.map ByteOperand.value) }]) ∧
      t.ready = true ∧ t.acc = accAfter (ops.map ByteOperand.value)

/-- R69, R99: a second message without `INIT` is appended to the first, after the first has been read (R67). The host that runs the listing is
the model's choice (log 14). -/
def Obligations.MissingInitConcatenates : Prop :=
  ∀ (s : State) (ops1 ops2 : List ByteOperand) (n1 n2 : String), s.ResetApplied → ∃ t : State,
    runLines (checksumLines ops1 n1 ++ feedLines ops2 ++ [.read n2]) s [] =
      .next (t, [{ name := n1, value := checksum (ops1.map ByteOperand.value) },
        { name := n2, value := checksum (ops1.map ByteOperand.value ++ ops2.map ByteOperand.value) }])

/-- R67: reading with `ready = 1` takes no edge and changes no state. The host that runs the listing is the model's choice (log 14). -/
def Obligations.ReadingChangesNothing : Prop :=
  ∀ (s : State) (name : String) (ls : List Line) (had : List Reading), s.ResetApplied → s.ready = true →
    runLines (.read name :: ls) s had = runLines ls s (had ++ [{ name := name, value := s.acc ^^^ 0xFFFFFFFF#32 }])

/-- R8, D12: both implementations, once reset and at rest with equal accumulators, read the same values for every listing, and end with the
same accumulator once it has settled. The host that runs the listing, holding each command until it is accepted, is the model's choice
(log 14). -/
def Obligations.ImplementationIsInvisible : Prop :=
  ∀ (ls : List Line) (a : Word) (x y : List Ports) (had : List Reading), ∃ (t u : State) (out : List Reading),
    runLines ls { impl := .table, acc := a, cnt := 0#4, inputs := x, preReset := none } had = .next (t, out) ∧
    runLines ls { impl := .bitserial, acc := a, cnt := 0#4, inputs := y, preReset := none } had = .next (u, out) ∧
    t.acc = u.settled

/-- R102: the edges of a message of `n` bytes, `INIT` to valid `crc`, host never idle: `1 + n` on the table-driven block, `1 + 9n` on the
bit-serial one, whatever the host shows at each of the busy edges, which are given byte by byte of the message; and at every busy edge of one
byte more the block is not ready. -/
def Obligations.MessageTakesTheTabulatedEdges : Prop :=
  (∀ (s : State) (m : List Byte), s.ResetApplied → s.impl = .table → ∃ t : State,
    runEdges (Ports.drive .init :: m.map fun b => Ports.drive (.upd b)) s = .next t ∧ t.ready = true ∧ t.crc = checksum m) ∧
  ∀ (s : State) (m : List (Byte × List Ports)), s.ResetApplied → s.impl = .bitserial → s.cnt = 0#4 →
    (∀ x ∈ m, x.2.length = 8 ∧ ∀ q ∈ x.2, q.rst = false) →
    (m.flatMap fun x => Ports.drive (.upd x.1) :: x.2).length = 9 * m.length ∧
    (∃ t : State,
      runEdges (Ports.drive .init :: m.flatMap fun x => Ports.drive (.upd x.1) :: x.2) s = .next t ∧ t.ready = true ∧
      t.crc = checksum (m.map Prod.fst)) ∧
    ∀ (b : Byte) (shown : List Ports), shown.length < 8 → (∀ q ∈ shown, q.rst = false) → ∃ t : State,
      runEdges ((Ports.drive .init :: m.flatMap fun x => Ports.drive (.upd x.1) :: x.2) ++ Ports.drive (.upd b) :: shown) s = .next t ∧
      t.ready = false

/-- R88, duty H-3: a run has a meaning throughout exactly when the host keeps the duty never to have a reserved code accepted, before the first
reset too, where `ready` may be 1 (log 8). -/
def Obligations.DutifulRunsGoThrough : Prop :=
  ∀ (ps : List Ports) (s : State), dutifulRun ps s = true ↔ RunsThrough ps s

/-- The machine's own run is the edges of its scheduled samples, one step each (the schedule is the model's choice, log 2). -/
def Obligations.StepsFollowTheSchedule : Prop :=
  ∀ (ps rest : List Ports) (s : State),
    Host.Core.run Sys2Proof.core ps.length ({ s with inputs := ps ++ rest } : State) = runEdges ps { s with inputs := rest }

/-! ### The consumer's contract -/

/-- R32: the result on the wire is four bytes, most significant first, from which the consumer assembles it again (R74). -/
def Obligations.ResultIsSerialisedBigEndian : Prop :=
  ∀ w : Word,
    bigEndian w = [w.extractLsb' 24 8, w.extractLsb' 16 8, w.extractLsb' 8 8, w.extractLsb' 0 8] ∧
    assembleWord (w.extractLsb' 24 8) (w.extractLsb' 16 8) (w.extractLsb' 8 8) (w.extractLsb' 0 8) = w

/-- R71, R72: the message of a chunk is its type code and payload, of `4 + L` bytes, never empty; neither the length field nor the
checksum field is part of it. -/
def Obligations.ChunkMessageIsTypeThenPayload : Prop :=
  ∀ (c : Chunk) (len : Word) (d0 d1 d2 d3 : Byte),
    c.message = [c.t0, c.t1, c.t2, c.t3] ++ c.payload ∧ c.message.length = 4 + c.payload.length ∧ c.message ≠ [] ∧
    ({ c with length := len, c0 := d0, c1 := d1, c2 := d2, c3 := d3 } : Chunk).message = c.message ∧
    c.wireBytes = bigEndian c.length ++ c.message ++ [c.c0, c.c1, c.c2, c.c3]

/-- R74 and the source's examples S3, S4: the consumer finds a chunk intact exactly where its four checksum bytes are the checksum of its
message, most significant first, and carries both values where they are not; a constructed chunk is intact. The source does not say which of the two values is which (U10):
that the computed one stands first and the received one second is the model's choice (log 17). -/
def Obligations.ConsumerAcceptsExactlyTheChecksum : Prop :=
  (∀ c : Chunk,
    (c.checksumField = bigEndian (checksum c.message) → c.verify = .intact) ∧
    (c.checksumField ≠ bigEndian (checksum c.message) →
      c.verify = .mismatch (checksum c.message) (assembleWord c.c0 c.c1 c.c2 c.c3))) ∧
  ∀ (t0 t1 t2 t3 : Byte) (payload : List Byte),
    (Chunk.construct t0 t1 t2 t3 payload).message = [t0, t1, t2, t3] ++ payload ∧
    (Chunk.construct t0 t1 t2 t3 payload).checksumField = bigEndian (checksum ([t0, t1, t2, t3] ++ payload)) ∧
    (Chunk.construct t0 t1 t2 t3 payload).verify = .intact

/-- R75: each chunk's checksum is a transaction of its own: two chunks summed one after the other, from any state in which a reset has been
applied, give each its own checksum. The host that runs the listing is the model's choice (log 14). -/
def Obligations.OneTransactionPerChunk : Prop :=
  ∀ (s : State) (a0 a1 a2 a3 b0 b1 b2 b3 : ByteOperand) (p q : List ByteOperand) (n1 n2 : String), s.ResetApplied → ∃ t : State,
    runLines (chunkCrcLines a0 a1 a2 a3 p n1 ++ chunkCrcLines b0 b1 b2 b3 q n2) s [] =
      .next (t, [{ name := n1, value := checksum (([a0, a1, a2, a3] ++ p).map ByteOperand.value) },
        { name := n2, value := checksum (([b0, b1, b2, b3] ++ q).map ByteOperand.value) }])
end

