-- ==== Sys2Proof/Laws/Decode.lean ====
section
/-! SUPPORT. The fields of a command word, and the command each code carries. -/

namespace Sys2Proof

@[simp] theorem opField_commandWordOf (op : OpCode) (din : Byte) : opField (commandWordOf op din) = op := by
  apply BitVec.eq_of_getLsbD_eq
  intro k hk
  rw [opField, commandWordOf, BitVec.getLsbD_extractLsb', BitVec.getLsbD_append]
  simp [hk]

@[simp] theorem dinField_commandWordOf (op : OpCode) (din : Byte) : dinField (commandWordOf op din) = din := by
  apply BitVec.eq_of_getLsbD_eq
  intro k hk
  rw [dinField, commandWordOf, BitVec.getLsbD_extractLsb', BitVec.getLsbD_append]
  simp [hk]

/-- The opcode map (R45), by code. -/
theorem decodeWord_of_op (op : OpCode) (din : Byte) :
    decodeWord (commandWordOf op din) =
      if op = 0b00#2 then .nop else if op = 0b01#2 then .init else if op = 0b10#2 then .upd din else .rsvd := by
  simp [decodeWord]

end Sys2Proof

namespace Sys2Proof.Machine

/-- The command a sample carries, by its code. -/
theorem command_eq (p : Ports) :
    p.command = if p.op = 0b00#2 then .nop else if p.op = 0b01#2 then .init else if p.op = 0b10#2 then .upd p.din else .rsvd :=
  decodeWord_of_op p.op p.din

end Sys2Proof.Machine
end

