-- ==== Sys2Proof/Laws/State.lean ====
section
/-! SUPPORT. One lemma per field per update of State: no later proof unfolds a record update. -/

namespace Sys2Proof.Machine

variable (s : State) (v : Word) (n : BitVec 4) (w : CommandWord) (impl : Impl) (k : Nat)

@[simp] theorem setAcc_acc : (s.setAcc v).acc = v := rfl
@[simp] theorem setAcc_cnt : (s.setAcc v).cnt = s.cnt := rfl
@[simp] theorem setAcc_impl : (s.setAcc v).impl = s.impl := rfl
@[simp] theorem setAcc_inputs : (s.setAcc v).inputs = s.inputs := rfl
@[simp] theorem setAcc_preReset : (s.setAcc v).preReset = s.preReset := rfl

@[simp] theorem setCnt_acc : (s.setCnt n).acc = s.acc := rfl
@[simp] theorem setCnt_cnt : (s.setCnt n).cnt = n := rfl
@[simp] theorem setCnt_impl : (s.setCnt n).impl = s.impl := rfl
@[simp] theorem setCnt_inputs : (s.setCnt n).inputs = s.inputs := rfl
@[simp] theorem setCnt_preReset : (s.setCnt n).preReset = s.preReset := rfl

@[simp] theorem startMessage_acc : s.startMessage.acc = Config.initAcc := rfl
@[simp] theorem startMessage_cnt : s.startMessage.cnt = s.cnt := rfl
@[simp] theorem startMessage_impl : s.startMessage.impl = s.impl := rfl
@[simp] theorem startMessage_inputs : s.startMessage.inputs = s.inputs := rfl
@[simp] theorem startMessage_preReset : s.startMessage.preReset = s.preReset := rfl

@[simp] theorem resetEdge_acc : s.resetEdge.acc = Config.initAcc := rfl
@[simp] theorem resetEdge_cnt : s.resetEdge.cnt = 0#4 := rfl
@[simp] theorem resetEdge_impl : s.resetEdge.impl = s.impl := rfl
@[simp] theorem resetEdge_inputs : s.resetEdge.inputs = s.inputs := rfl
@[simp] theorem resetEdge_preReset : s.resetEdge.preReset = none := rfl

@[simp] theorem busyStep_acc : s.busyStep.acc = bitstep s.acc := rfl
@[simp] theorem busyStep_cnt : s.busyStep.cnt = s.cnt - 1#4 := rfl
@[simp] theorem busyStep_impl : s.busyStep.impl = s.impl := rfl
@[simp] theorem busyStep_inputs : s.busyStep.inputs = s.inputs := rfl
@[simp] theorem busyStep_preReset : s.busyStep.preReset = s.preReset := rfl

@[simp] theorem consumed_acc : s.consumed.acc = s.acc := rfl
@[simp] theorem consumed_cnt : s.consumed.cnt = s.cnt := rfl
@[simp] theorem consumed_impl : s.consumed.impl = s.impl := rfl
@[simp] theorem consumed_inputs : s.consumed.inputs = s.inputs.tail := rfl
@[simp] theorem consumed_preReset : s.consumed.preReset = s.preReset := rfl

@[simp] theorem stayUnset_acc : (s.stayUnset k).acc = Config.preResetAcc s.impl (k + 1) := rfl
@[simp] theorem stayUnset_cnt : (s.stayUnset k).cnt = unsetCnt s.impl (k + 1) := rfl
@[simp] theorem stayUnset_impl : (s.stayUnset k).impl = s.impl := rfl
@[simp] theorem stayUnset_inputs : (s.stayUnset k).inputs = s.inputs := rfl
@[simp] theorem stayUnset_preReset : (s.stayUnset k).preReset = some (k + 1) := rfl

@[simp] theorem presenting_acc : (s.presenting w).acc = s.acc := rfl
@[simp] theorem presenting_cnt : (s.presenting w).cnt = 0#4 := rfl
@[simp] theorem presenting_impl : (s.presenting w).impl = s.impl := rfl
@[simp] theorem presenting_inputs : (s.presenting w).inputs = Ports.ofWord w :: s.inputs.tail := rfl
@[simp] theorem presenting_preReset : (s.presenting w).preReset = none := rfl

@[simp] theorem resetOf_acc : (State.resetOf impl).acc = 0xFFFFFFFF#32 := rfl
@[simp] theorem resetOf_cnt : (State.resetOf impl).cnt = 0#4 := rfl
@[simp] theorem resetOf_impl : (State.resetOf impl).impl = impl := rfl
@[simp] theorem resetOf_inputs : (State.resetOf impl).inputs = [] := rfl
@[simp] theorem resetOf_preReset : (State.resetOf impl).preReset = none := rfl

end Sys2Proof.Machine
end

