-- ==== Sys2Proof/Laws/Ops.lean ====
section
/-! SUPPORT. What each shared operation can do, said once: `ready` and `crc` by implementation, `feed` by implementation, the port
samples, and the fields of a command word. -/

namespace Sys2Proof.Machine

/-- Before the first reset `ready` is a free value on either implementation (R24). -/
theorem ready_of_unset {s : State} {n : Nat} (h : s.preReset = some n) : s.ready = Config.preResetReady s.impl n := by
  simp [State.ready, h]

theorem ready_of_table {s : State} (h0 : s.preReset = none) (h : s.impl = .table) : s.ready = true := by
  simp [State.ready, h0, h]

theorem ready_of_bitserial {s : State} (h0 : s.preReset = none) (h : s.impl = .bitserial) : s.ready = (s.cnt == 0#4) := by
  simp [State.ready, h0, h]

/-- Once reset, a busy block is the bit-serial one with steps owed (R15). -/
theorem busy_iff {s : State} (h0 : s.preReset = none) : s.ready = false ↔ s.impl = .bitserial ∧ s.cnt ≠ 0#4 := by
  cases h : s.impl <;> simp [State.ready, h0, h]

/-- `ready` reads `preReset`, `impl` and `cnt` alone. -/
theorem ready_congr {s t : State} (h0 : s.preReset = t.preReset) (hi : s.impl = t.impl) (hc : s.cnt = t.cnt) : s.ready = t.ready := by
  simp [State.ready, h0, hi, hc]

@[simp] theorem ready_setAcc (s : State) (v : Word) : (s.setAcc v).ready = s.ready := rfl
@[simp] theorem ready_consumed (s : State) : s.consumed.ready = s.ready := rfl
@[simp] theorem ready_startMessage (s : State) : s.startMessage.ready = s.ready := rfl
@[simp] theorem ready_resetEdge (s : State) : s.resetEdge.ready = true := by
  cases h : s.impl <;> simp [State.ready, h]

/-- What the host may use of `crc`, once a reset has been applied (R14). -/
theorem crc_of_ready {s : State} (h0 : s.preReset = none) (h : s.ready = true) : s.crc = s.acc ^^^ 0xFFFFFFFF#32 := by
  simp [State.crc, State.crcWire, Config.xorOut, h0, h]

/-- Before the first reset `crc` is a free value (R24). -/
theorem crc_of_unset {s : State} {n : Nat} (h : s.preReset = some n) : s.crc = Config.preResetCrc s.impl n := by
  simp [State.crc, h]

theorem feed_of_table {s : State} (h : s.impl = .table) (din : Byte) :
    s.feed din = s.setAcc (updWord s.acc din) := by
  simp [State.feed, h]

theorem feed_of_bitserial {s : State} (h : s.impl = .bitserial) (din : Byte) :
    s.feed din = (s.setAcc (s.acc ^^^ zext32 din)).setCnt 8#4 := by
  simp [State.feed, h, Config.latUpd]

@[simp] theorem feed_impl (s : State) (din : Byte) : (s.feed din).impl = s.impl := by
  cases h : s.impl <;> simp [State.feed, h]

@[simp] theorem feed_inputs (s : State) (din : Byte) : (s.feed din).inputs = s.inputs := by
  cases h : s.impl <;> simp [State.feed, h]

@[simp] theorem feed_preReset (s : State) (din : Byte) : (s.feed din).preReset = s.preReset := by
  cases h : s.impl <;> simp [State.feed, h]

theorem presented_cons {s : State} {p : Ports} {rest : List Ports} (h : s.inputs = p :: rest) : s.presented = p := by
  simp [State.presented, h]

theorem presented_nil {s : State} (h : s.inputs = []) : s.presented = Ports.idle := by
  simp [State.presented, h]

/-- A table word is eight one-bit steps of its index (R26). -/
theorem tableWord_eq (i : Byte) : tableWord i = bitsteps 8 (zext32 i) := rfl

theorem bitsteps_succ (n : Nat) (c : Word) : bitsteps (n + 1) c = bitsteps n (bitstep c) := rfl

end Sys2Proof.Machine
end

