-- ==== Sys2Proof/Laws/Edge.lean ====
section
/-! SUPPORT. Everything a command, an edge and a run of edges can do, said once. Later proofs cite these and do not unfold `edge`. -/

namespace Sys2Proof.Machine

theorem exec_nop (s : State) : exec .nop s = .next s := rfl
theorem exec_init (s : State) : exec .init s = .next s.startMessage := rfl
theorem exec_upd (din : Byte) (s : State) : exec (.upd din) s = .next (s.feed din) := rfl
theorem exec_rsvd (s : State) : exec .rsvd s = .refused .reservedOp := rfl

/-- If a command answers a next state, it is one of these three. -/
theorem exec_next_cases {i : Instr} {s t : State} (h : exec i s = .next t) :
    (i = .nop ∧ t = s) ∨ (i = .init ∧ t = s.startMessage) ∨ (∃ din, i = .upd din ∧ t = s.feed din) := by
  cases i with
  | nop => exact .inl ⟨rfl, by simpa [exec_nop] using h.symm⟩
  | init => exact .inr (.inl ⟨rfl, by simpa [exec_init] using h.symm⟩)
  | upd din => exact .inr (.inr ⟨din, rfl, by simpa [exec_upd] using h.symm⟩)
  | rsvd => simp [exec_rsvd] at h

theorem edge_of_rst {p : Ports} (h : p.rst = true) (s : State) : edge p s = .next s.resetEdge := by
  simp [edge, h]

theorem edge_of_busy {p : Ports} {s : State} (h : p.rst = false) (h0 : s.preReset = none) (hb : s.ready = false) :
    edge p s = .next s.busyStep := by
  simp [edge, h, h0, hb]

theorem edge_of_accepted {p : Ports} {s : State} (h : p.rst = false) (h0 : s.preReset = none) (hr : s.ready = true) :
    edge p s = exec p.command s := by
  simp [edge, h, h0, hr]

theorem edge_of_unset {p : Ports} {s : State} {n : Nat} (h : p.rst = false) (h0 : s.preReset = some n) :
    edge p s = edgeBeforeReset n p s := by
  simp [edge, h, h0]

/-- Before the first reset an edge leaves everything unspecified, or meets a reserved code at `ready = 1`. -/
theorem edgeBeforeReset_cases (n : Nat) (p : Ports) (s : State) :
    (edgeBeforeReset n p s = .next (s.stayUnset n) ∧ (s.ready = true → p.command.wellFormed = true)) ∨
      (edgeBeforeReset n p s = .refused .reservedOp ∧ s.ready = true ∧ p.command.wellFormed = false) := by
  cases hr : s.ready <;> cases hw : p.command.wellFormed <;> simp [edgeBeforeReset, refuseReserved, hr, hw]

/-- If an edge answers a next state, it was one of the three things of R54, or an edge before the first reset. -/
theorem edge_next_cases {p : Ports} {s t : State} (h : edge p s = .next t) :
    (p.rst = true ∧ t = s.resetEdge) ∨ (∃ n, p.rst = false ∧ s.preReset = some n ∧ t = s.stayUnset n) ∨
      (p.rst = false ∧ s.preReset = none ∧ s.ready = false ∧ t = s.busyStep) ∨
      (p.rst = false ∧ s.preReset = none ∧ s.ready = true ∧ exec p.command s = .next t) := by
  cases hp : p.rst with
  | true => exact .inl ⟨rfl, by simpa [edge_of_rst hp] using h.symm⟩
  | false =>
    cases h0 : s.preReset with
    | some n =>
      rw [edge_of_unset hp h0] at h
      rcases edgeBeforeReset_cases n p s with ⟨h1, -⟩ | ⟨h1, -⟩
      · exact .inr (.inl ⟨n, rfl, rfl, by simpa [h1] using h.symm⟩)
      · simp [h1] at h
    | none =>
      cases hr : s.ready with
      | false => exact .inr (.inr (.inl ⟨rfl, rfl, rfl, by simpa [edge_of_busy hp h0 hr] using h.symm⟩))
      | true => exact .inr (.inr (.inr ⟨rfl, rfl, rfl, by rw [← h, edge_of_accepted hp h0 hr]⟩))

@[simp] theorem runEdges_nil (s : State) : runEdges [] s = .next s := rfl

theorem runEdges_cons_next {p : Ports} {s t : State} (h : edge p s = .next t) (rest : List Ports) :
    runEdges (p :: rest) s = runEdges rest t := by
  simp [runEdges, h]

theorem runEdges_cons_refused {p : Ports} {s : State} {r : Refusal} (h : edge p s = .refused r) (rest : List Ports) :
    runEdges (p :: rest) s = .refused r := by
  simp [runEdges, h]

/-- A run goes on from where its first part ends. -/
theorem runEdges_append {ps : List Ports} {s t : State} (h : runEdges ps s = .next t) (qs : List Ports) :
    runEdges (ps ++ qs) s = runEdges qs t := by
  induction ps generalizing s with
  | nil => simp only [runEdges_nil, Host.Outcome.next.injEq] at h; rw [h]; rfl
  | cons p rest ih =>
    cases he : edge p s with
    | next u => rw [runEdges_cons_next he] at h; rw [List.cons_append, runEdges_cons_next he]; exact ih h
    | fault f => cases f
    | refused r => rw [runEdges_cons_refused he] at h; simp at h

/-- A run that has been refused stays refused, whatever edges follow. -/
theorem runEdges_append_refused {ps : List Ports} {s : State} {r : Refusal} (h : runEdges ps s = .refused r) (qs : List Ports) :
    runEdges (ps ++ qs) s = .refused r := by
  induction ps generalizing s with
  | nil => simp at h
  | cons p rest ih =>
    cases he : edge p s with
    | next u => rw [runEdges_cons_next he] at h; rw [List.cons_append, runEdges_cons_next he]; exact ih h
    | fault f => cases f
    | refused q => rw [runEdges_cons_refused he] at h; rw [List.cons_append, runEdges_cons_refused he]; exact h

/-- A step is an edge with the next sample. -/
theorem step_eq (s : State) : step s = edge s.presented s.consumed := rfl

end Sys2Proof.Machine
end

