-- ==== Sys2Proof/Laws/Core.lean ====
section
/-! SUPPORT. The machine's own run (`Host.Core.run`) in terms of `step`, and what an edge does beside the schedule: nothing. -/

namespace Sys2Proof.Machine

theorem coreRun_zero (s : State) : Host.Core.run Sys2Proof.core 0 s = .next s := rfl

theorem run_succ_of_next (M : Host.Core) {s t : M.State} (h : M.step s = .next t) (k : Nat) : M.run (k + 1) s = M.run k t := by
  simp [Host.Core.run, h]

theorem run_succ_of_refused (M : Host.Core) {s : M.State} {r : M.Refusal} (h : M.step s = .refused r) (k : Nat) :
    M.run (k + 1) s = .refused r := by
  simp [Host.Core.run, h]

theorem coreRun_succ_next {s t : State} (h : step s = .next t) (k : Nat) :
    Host.Core.run Sys2Proof.core (k + 1) s = Host.Core.run Sys2Proof.core k t :=
  run_succ_of_next Sys2Proof.core h k

theorem coreRun_succ_refused {s : State} {r : Refusal} (h : step s = .refused r) (k : Nat) :
    Host.Core.run Sys2Proof.core (k + 1) s = .refused r :=
  run_succ_of_refused Sys2Proof.core h k

/-- `s` with another schedule. -/
abbrev State.withInputs (s : State) (ps : List Ports) : State := { s with inputs := ps }

theorem feed_withInputs (s : State) (ps : List Ports) (din : Byte) :
    (s.withInputs ps).feed din = (s.feed din).withInputs ps := by
  cases h : s.impl <;> simp [State.feed, h, State.setAcc, State.setCnt]

/-- An edge neither reads nor writes the schedule: with another one it ends in the same state with that other one, or is refused alike. -/
theorem edge_withInputs (p : Ports) (s : State) (ps qs : List Ports) :
    (∃ t : State, edge p (s.withInputs ps) = .next (t.withInputs ps) ∧ edge p (s.withInputs qs) = .next (t.withInputs qs)) ∨
      ∃ r, edge p (s.withInputs ps) = .refused r ∧ edge p (s.withInputs qs) = .refused r := by
  cases hp : p.rst with
  | true => exact .inl ⟨s.resetEdge, edge_of_rst hp _, edge_of_rst hp _⟩
  | false =>
    cases h0 : s.preReset with
    | some n =>
      have hps : edge p (s.withInputs ps) = edgeBeforeReset n p (s.withInputs ps) := edge_of_unset hp h0
      have hqs : edge p (s.withInputs qs) = edgeBeforeReset n p (s.withInputs qs) := edge_of_unset hp h0
      have hr : (s.withInputs ps).ready = (s.withInputs qs).ready := rfl
      rw [hps, hqs]
      rcases edgeBeforeReset_cases n p (s.withInputs ps) with ⟨h1, h2⟩ | ⟨h1, h2, h3⟩ <;>
        rcases edgeBeforeReset_cases n p (s.withInputs qs) with ⟨h4, h5⟩ | ⟨h4, h5, h6⟩
      · exact .inl ⟨s.stayUnset n, h1, h4⟩
      · simp [h2 (hr.trans h5)] at h6
      · simp [h5 (hr.symm.trans h2)] at h3
      · exact .inr ⟨.reservedOp, h1, h4⟩
    | none =>
      cases hr : s.ready with
      | false => exact .inl ⟨s.busyStep, edge_of_busy hp h0 hr, edge_of_busy hp h0 hr⟩
      | true =>
        have hps : edge p (s.withInputs ps) = exec p.command (s.withInputs ps) := edge_of_accepted hp h0 hr
        have hqs : edge p (s.withInputs qs) = exec p.command (s.withInputs qs) := edge_of_accepted hp h0 hr
        rw [hps, hqs]
        cases p.command with
        | nop => exact .inl ⟨s, rfl, rfl⟩
        | init => exact .inl ⟨s.startMessage, rfl, rfl⟩
        | upd din => exact .inl ⟨s.feed din, by rw [exec_upd, feed_withInputs], by rw [exec_upd, feed_withInputs]⟩
        | rsvd => exact .inr ⟨.reservedOp, rfl, rfl⟩

/-- The first scheduled sample is the next edge. -/
theorem step_withInputs_cons (s : State) (p : Ports) (ps : List Ports) : step (s.withInputs (p :: ps)) = edge p (s.withInputs ps) := rfl

end Sys2Proof.Machine
end

