-- ==== Sys2Proof/Laws/PerInstr.lean ====
section
/-! SUPPORT. The statements made for each command as syntax: its canonical word decodes to it, in two bytes. -/

namespace Sys2Proof.Laws.WordRoundTrip

/-- The canonical word of a command decodes to it, and takes two bytes of a listing. -/
def Statement (i : Instr) : Prop := decodeWord (encodeWord i) = i ∧ (encode i).length = 2

theorem nop : Statement .nop := ⟨by decide, rfl⟩

theorem init : Statement .init := ⟨by decide, rfl⟩

theorem upd (din : Byte) : Statement (.upd din) := ⟨decodeWord_of_op 0b10#2 din, rfl⟩

theorem rsvd : Statement .rsvd := ⟨by decide, rfl⟩

end Sys2Proof.Laws.WordRoundTrip
end

