-- ==== Sys2Proof/Tests/Slice0.lean ====
section
/-! SUPPORT. The model's own tests: expected results are the spec's (30_encoding.md, 95_test_vectors.md), each named in its comment; and,
for every statement with hypotheses, a concrete state and operands that meet them (`test_witness_…`). -/

namespace Sys2Proof.Tests

open Sys2Proof Sys2Proof.Machine

/-- A block with this accumulator, no step owed and nothing scheduled. -/
def tableAt (a : Word) : State := { impl := .table, acc := a, cnt := 0#4, inputs := [], preReset := none }

/-- A bit-serial block with this accumulator and these steps owed, and nothing scheduled. -/
def serialAt (a : Word) (n : BitVec 4) : State := { impl := .bitserial, acc := a, cnt := n, inputs := [], preReset := none }

/-- A block that has seen `n` edges since power-up and no reset. -/
def unsetAt (impl : Impl) (n : Nat) : State := { impl := impl, acc := 5#32, cnt := 0#4, inputs := [], preReset := some n }

/-- A sample without reset. -/
def shows (op : OpCode) (din : Byte) : Ports := { rst := false, op := op, din := din }

/-- A sample with reset. -/
def resets (op : OpCode) (din : Byte) : Ports := { rst := true, op := op, din := din }

/-- The next state, where there is one. -/
def answer (o : Host.Outcome State Fault Refusal) : Option State :=
  match o with
  | .next t => some t
  | .fault _ => none
  | .refused _ => none

/-- The refusal, where there is one. -/
def refusalOf (o : Host.Outcome State Fault Refusal) : Option Refusal :=
  match o with
  | .next _ => none
  | .fault _ => none
  | .refused r => some r

/-! ### Well-formedness: an ill-formed term for each check -/

theorem test_wellFormed_refuses_reserved : Instr.wellFormed .rsvd = false := by decide

theorem test_wellFormed_admits_the_rest :
    (Instr.wellFormed .nop && Instr.wellFormed .init && Instr.wellFormed (.upd 0xFF#8)) = true := by decide

theorem test_wordFits_refuses_eleven_bits : (wordFits 0x400, wordFits 0x3FF) = (false, true) := by decide

theorem test_printable_refuses_control_characters :
    (isPrintable (Char.ofNat 10), isPrintable (Char.ofNat 127), isPrintable 'a', isPrintable ' ') = (false, false, true, true) := by decide

theorem test_operand_refuses_control_character : (ByteOperand.char (Char.ofNat 10)).wellFormed = false := by decide

theorem test_line_refuses_control_character : (Line.upd (.char (Char.ofNat 10))).wellFormed = false := by decide

/-! ### Decoding: words written out from the encodings of R45 -/

/-- `NOP` is `00xxxxxxxx`; NP2 of 95_test_vectors.md. -/
theorem test_decode_nop : (decodeWord 0b0000000000#10, decodeWord 0b0010100101#10) = (.nop, .nop) := by decide

/-- `INIT` is `01xxxxxxxx`; I2. -/
theorem test_decode_init : (decodeWord 0b0100000000#10, decodeWord 0b0111111111#10) = (.init, .init) := by decide

/-- `UPD` is `10dddddddd`; P1 writes `UPD 'a'` as `261`. -/
theorem test_decode_upd : (decodeWord 0b1001100001#10, decodeWord 0b1010000001#10) = (.upd 0x61#8, .upd 0x81#8) := by decide

/-- `RSVD` is `11xxxxxxxx`; X1. -/
theorem test_decode_rsvd : (decodeWord 0b1100000000#10, decodeWord 0b1111111111#10) = (.rsvd, .rsvd) := by decide

/-- The rows of opcode_table.json, by match value, and `UPD` with a byte. -/
theorem test_decodeTableWord_rows :
    ([0x000, 0x100, 0x200, 0x300, 0x261].map fun w => decodeTableWord 16 w) =
      [some .nop, some .init, some (.upd 0x00#8), some .rsvd, some (.upd 0x61#8)] := by decide

/-- A bit above the ten of a command word is refused by name, and so is half a command (log 5). -/
theorem test_decode_rejects_by_name :
    (decodeListing [0x61#8, 0x06#8], decodeListing [0x61#8]) = (.error .notACommandWord, .error .truncated) := by
  rfl

/-- P1's command words `100 261 262 263` as a listing's bytes. -/
theorem test_decode_listing_abc :
    decodeListing [0x00#8, 0x01#8, 0x61#8, 0x02#8, 0x62#8, 0x02#8, 0x63#8, 0x02#8] =
      .ok [.init, .upd 0x61#8, .upd 0x62#8, .upd 0x63#8] := by
  rfl

/-! ### The two functions -/

/-- B2, B5, B6, B10 of 95_test_vectors.md. -/
theorem test_bitstep_vectors :
    [bitstep 0x00000001#32, bitstep 0x80000000#32, bitstep 0xFFFFFFFF#32, bitstep 0x12345679#32] =
      [0xEDB88320#32, 0x40000000#32, 0x92477CDF#32, 0xE4A2A81C#32] := by decide

/-- UP4, UP7, UP8, UP11, UP12. -/
theorem test_upd_vectors :
    [updWord 0x00000000#32 0xFF#8, updWord 0xFFFFFFFF#32 0x61#8, updWord 0x12345678#32 0x9A#8, updWord 0xDEADBEEF#32 0x10#8,
      updWord 0x80000000#32 0x00#8] =
      [0x2D02EF8D#32, 0x174841BC#32, 0x4E16B702#32, 0x2DDC4233#32, 0x00800000#32] := by decide

/-- V1, V10 and V16. -/
theorem test_checksum_vectors :
    [checksum [], checksum [0x31#8, 0x32#8, 0x33#8, 0x34#8, 0x35#8, 0x36#8, 0x37#8, 0x38#8, 0x39#8],
      checksum [0x89#8, 0x50#8, 0x4E#8, 0x47#8, 0x0D#8, 0x0A#8, 0x1A#8, 0x0A#8]] =
      [0x00000000#32, 0xCBF43926#32, 0x7A0709A4#32] := by decide

/-! ### One step of each command, as the first after reset or from a vector's state -/

/-- NP2: `0A5` leaves `ACC = 174841BC` and `crc = E8B7BE43`. -/
theorem test_step_nop :
    (answer (step ((tableAt 0x174841BC#32).withFetchWord 16 0x0A5))).map (fun t => (t.acc, t.crc)) =
      some (0x174841BC#32, 0xE8B7BE43#32) := by decide

/-- I2: `1FF` gives `ACC = FFFFFFFF` and `crc = 0`. -/
theorem test_step_init :
    (answer (step ((tableAt 0x174841BC#32).withFetchWord 16 0x1FF))).map (fun t => (t.acc, t.crc)) =
      some (0xFFFFFFFF#32, 0x00000000#32) := by decide

/-- P1, edge 2: `261` as the first command after reset. -/
theorem test_step_upd_table :
    (answer (step (State.reset.withFetchWord 16 0x261))).map (fun t => (t.acc, t.crc, t.ready)) =
      some (0x174841BC#32, 0xE8B7BE43#32, true) := by decide

/-- P4, edge 2: `UPD 'a'` accepted by the bit-serial block. -/
theorem test_step_upd_serial :
    (answer (step ((State.resetOf .bitserial).withFetchWord 16 0x261))).map (fun t => (t.acc, t.cnt, t.ready)) =
      some (0xFFFFFF9E#32, 8#4, false) := by decide

/-- X1: `300` is refused by name. -/
theorem test_step_rsvd : refusalOf (step (State.reset.withFetchWord 16 0x300)) = some .reservedOp := by decide

/-- X2: a reset edge with `op = 11` is a reset. -/
theorem test_reset_wins_over_rsvd : answer (edge (resets 0b11#2 0x00#8) (tableAt 0x174841BC#32)) = some (tableAt 0xFFFFFFFF#32) := by
  decide

/-- P4, edge 7, with X3: `op = 11` shown to a busy block is a busy step and no refusal. -/
theorem test_busy_step : answer (edge (shows 0b11#2 0x00#8) (serialAt 0xAFF51D81#32 4#4)) = some (serialAt 0xBA420DE0#32 3#4) := by decide

/-- P4, edge 10: the last busy step makes the block ready, with `crc = E8B7BE43`. -/
theorem test_last_busy_step :
    (answer (edge (shows 0b10#2 0x62#8) (serialAt 0x2E908378#32 1#4))).map (fun t => (t.acc, t.ready, t.crc)) =
      some (0x174841BC#32, true, 0xE8B7BE43#32) := by decide

/-! ### Notation and the consumer -/

/-- R50's spellings. -/
theorem test_line_texts :
    [Line.text .init, Line.text (.upd (.hex 0x6A#8)), Line.text (.read "c1")] = ["INIT", "UPD 0x6A", "READ -> c1"] := by decide

/-- P5's program line, and P3's `FEED`. -/
theorem test_pseudo_texts :
    [Pseudo.text (.chunkCrc (.hex 0x72#8) (.hex 0x75#8) (.hex 0x53#8) (.hex 0x74#8) [.hex 0x48#8, .hex 0x6A#8] "c"),
      Pseudo.text (.feed [.hex 0x48#8, .hex 0x69#8])] = ["CHUNKCRC 0x72 0x75 0x53 0x74 ; 0x48 0x6A -> c", "FEED 0x48 0x69"] := by decide

/-- R51: `CHUNKCRC` expands to `INIT`, an `UPD` a byte, and a `READ` (P2). -/
theorem test_chunkCrc_expansion :
    (chunkCrcLines (.char 'I') (.char 'E') (.char 'N') (.char 'D') [] "c").map Line.command? =
      [some .init, some (.upd 0x49#8), some (.upd 0x45#8), some (.upd 0x4E#8), some (.upd 0x44#8), none] := by decide

/-- P2: the whole "IEND" chunk on the wire. -/
theorem test_iend_wire_bytes :
    (Chunk.construct 0x49#8 0x45#8 0x4E#8 0x44#8 []).wireBytes =
      [0x00#8, 0x00#8, 0x00#8, 0x00#8, 0x49#8, 0x45#8, 0x4E#8, 0x44#8, 0xAE#8, 0x42#8, 0x60#8, 0x82#8] := by decide

/-- P5: a corrupted payload is a mismatch, with the computed and the received value. -/
theorem test_corrupted_chunk_mismatch :
    ({ Chunk.construct 0x72#8 0x75#8 0x53#8 0x74#8 [0x48#8, 0x69#8] with payload := [0x48#8, 0x6A#8] } : Chunk).verify =
      .mismatch 0xD99D4F5D#32 0x40941EE7#32 := by decide

/-! ### Witnesses: each statement's hypotheses are met by a concrete state and operands -/

/-- OpcodeMapByMatchAndMask, second part. -/
theorem test_witness_OpcodeMapByMatchAndMask :
    (0x000#10).extractLsb' 8 2 = (0x0FF#10).extractLsb' 8 2 ∧ (0x000#10).extractLsb' 8 2 ≠ 0b10#2 := by decide

/-- DinIgnoredUnlessUpd, each part at its boundaries. -/
theorem test_witness_DinIgnoredUnlessUpd :
    0b11#2 ≠ 0b10#2 ∧ (0x0FF#10).toNat ≤ 0x0FF ∧ 0x100 ≤ (0x100#10).toNat ∧ (0x100#10).toNat ≤ 0x1FF ∧ 0x100 ≤ (0x1FF#10).toNat ∧
      (0x1FF#10).toNat ≤ 0x1FF := by decide

/-- ListingRejectsByName: the least byte that is refused, and a listing that decodes. -/
theorem test_witness_ListingRejectsByName : 4 ≤ (0x04#8).toNat ∧ decodeListing [0xFF#8, 0x03#8] = .ok [.rsvd] := ⟨by decide, rfl⟩

/-- StepRunsPresentedCommand, both parts. -/
theorem test_witness_StepRunsPresentedCommand :
    ((tableAt 0#32).withInputs [shows 0b01#2 0#8]).ResetApplied ∧ ((tableAt 0#32).withInputs [shows 0b01#2 0#8]).inputs = shows 0b01#2 0#8 :: [] ∧ (shows 0b01#2 0#8).rst = false ∧
      ((tableAt 0#32).withInputs [shows 0b01#2 0#8]).ready = true ∧ wordFits 0x3FF = true := by decide

/-- EdgePriority, its three cases. -/
theorem test_witness_EdgePriority :
    (resets 0b11#2 0#8).rst = true ∧
      ((serialAt 0#32 8#4).ResetApplied ∧ (shows 0b00#2 0#8).rst = false ∧ (serialAt 0#32 8#4).ready = false) ∧
      (serialAt 0#32 0#4).ResetApplied ∧ (serialAt 0#32 0#4).ready = true := by decide

/-- ResetHeldIsResetOnce. -/
theorem test_witness_ResetHeldIsResetOnce :
    (resets 0b00#2 0#8).rst = true ∧ ∀ q ∈ [resets 0b11#2 0#8, resets 0b10#2 1#8], q.rst = true := by decide

/-- OnlyResetInterruptsBusy, at both ends of `CNT`. -/
theorem test_witness_OnlyResetInterruptsBusy :
    (serialAt 0#32 1#4).ResetApplied ∧ (serialAt 0#32 1#4).impl = .bitserial ∧ (serialAt 0#32 1#4).cnt ≠ 0#4 ∧
      (serialAt 0#32 8#4).cnt ≠ 0#4 := by decide

/-- PowerUpNeedsOneReset: a reset edge, and a run that is reset. -/
theorem test_witness_PowerUpNeedsOneReset :
    (resets 0b00#2 0#8).rst = true ∧ runEdges [resets 0b00#2 0#8] (unsetAt .table 3) = .next (tableAt 0xFFFFFFFF#32) := ⟨rfl, rfl⟩

/-- EdgeWithoutResetStaysUnreset: a state before reset, on each block, and a sample without reset. -/
theorem test_witness_EdgeWithoutResetStaysUnreset :
    (unsetAt .bitserial 3).preReset = some 3 ∧ (unsetAt .table 0).preReset = some 0 ∧ (shows 0b11#2 0#8).rst = false := by decide

/-- Before the first reset neither `ready` nor `crc` is settled: each is the free value of R24 (U2), on the table-driven block too. -/
theorem test_powerUp_outputs_are_free :
    (State.powerUp .table []).ready = Config.preResetReady .table 0 ∧ (State.powerUp .table []).crc = Config.preResetCrc .table 0 := ⟨rfl, rfl⟩

/-- TableBlockAtAnEdge, UpdOnTheTableBlock. -/
theorem test_witness_TableBlockAtAnEdge : (tableAt 0#32).ResetApplied ∧ (tableAt 0#32).impl = .table := by decide

/-- SerialBlockAtAnEdge, UpdOnTheSerialBlock: the longest and the shortest wait. -/
theorem test_witness_SerialBlockAtAnEdge :
    (serialAt 0#32 0#4).ResetApplied ∧ (serialAt 0#32 0#4).impl = .bitserial ∧ (serialAt 0#32 0#4).cnt = 0#4 ∧ (List.replicate 8 Ports.idle).length ≤ 8 ∧
      (∀ q ∈ List.replicate 8 Ports.idle, q.rst = false) ∧ ([] : List Ports).length ≤ 8 := by decide

/-- UnacceptedCommandLeavesNoTrace, each alternative. -/
theorem test_witness_UnacceptedCommandLeavesNoTrace :
    (tableAt 0#32).ResetApplied ∧ (serialAt 0#32 1#4).ResetApplied ∧
      (true = true ∨ (tableAt 0#32).ready = false) ∧ (false = true ∨ (serialAt 0#32 1#4).ready = false) := by decide

/-- TableBlockFeedsAHeldByteTwice. -/
theorem test_witness_TableBlockFeedsAHeldByteTwice :
    (tableAt 0x174841BC#32).ResetApplied ∧ (tableAt 0x174841BC#32).impl = .table ∧ (tableAt 0x174841BC#32).acc = accAfter [0x61#8] := by decide

/-- NopChangesNothing, every part: the rule's example. -/
theorem test_witness_NopChangesNothing :
    (tableAt 0x174841BC#32).ResetApplied ∧ (tableAt 0x174841BC#32).ready = true ∧ (tableAt 0x174841BC#32).acc = 0x174841BC#32 ∧
      (serialAt 0x174841BC#32 0#4).ResetApplied ∧ (serialAt 0x174841BC#32 0#4).ready = true := by decide

/-- IdleHostChangesNothing, InitStartsAMessage, ReservedCodeIsRefused (accepted), ReadingChangesNothing. -/
theorem test_witness_IdleHostChangesNothing :
    (serialAt 5#32 0#4).ResetApplied ∧ (serialAt 5#32 0#4).inputs = [] ∧ (serialAt 5#32 0#4).ready = true := by decide

/-- ReservedCodeIsRefused, the part of a busy block. -/
theorem test_witness_ReservedCodeIsRefused : (serialAt 5#32 8#4).ResetApplied ∧ (serialAt 5#32 8#4).ready = false := by decide

/-- UpdCompletesAfterItsLatency, each part, on each block. -/
theorem test_witness_UpdCompletesAfterItsLatency :
    (tableAt 5#32).ResetApplied ∧ (serialAt 5#32 0#4).ResetApplied ∧
      ((tableAt 5#32).ready = true ∧ ([] : List Ports).length = Config.latUpd (tableAt 5#32).impl) ∧
      ((serialAt 5#32 0#4).ready = true ∧ (List.replicate 8 Ports.idle).length = Config.latUpd (serialAt 5#32 0#4).impl) ∧
      (List.replicate 7 Ports.idle).length < Config.latUpd (serialAt 5#32 0#4).impl ∧
      ∀ q ∈ List.replicate 8 Ports.idle, q.rst = false := by decide

/-- OnlyAnAcceptedReservedCodeStops: a state that refuses. -/
theorem test_witness_OnlyAnAcceptedReservedCodeStops :
    refusalOf (step ((tableAt 5#32).withInputs [shows 0b11#2 0#8])) = some .reservedOp := by decide

/-- RefusalIsNeverWashedOut: a run to a ready state, before a reserved code that a reset and an `INIT` follow, and a number of steps past
it. -/
theorem test_witness_RefusalIsNeverWashedOut :
    runEdges [shows 0b10#2 0x61#8] (tableAt 0xFFFFFFFF#32) = .next (tableAt 0x174841BC#32) ∧ (tableAt 0x174841BC#32).ready = true ∧
      [shows 0b10#2 0x61#8].length < 4 ∧
      Host.Core.run Sys2Proof.core 4
        ((tableAt 0xFFFFFFFF#32).withInputs [shows 0b10#2 0x61#8, shows 0b11#2 0#8, resets 0b00#2 0#8, shows 0b01#2 0#8]) =
          .refused .reservedOp :=
  ⟨rfl, rfl, by decide, rfl⟩

/-- CommandFrames: a command that completes and writes `CNT`. -/
theorem test_witness_CommandFrames :
    exec (.upd 0x61#8) (serialAt 0#32 0#4) = .next (serialAt 0x61#32 8#4) ∧ (serialAt 0x61#32 8#4).cnt ≠ (serialAt 0#32 0#4).cnt :=
  ⟨rfl, by decide⟩

/-- OnlyTheseWriteTheAccumulator: a step that writes it. -/
theorem test_witness_OnlyTheseWriteTheAccumulator :
    ((tableAt 5#32).withInputs [shows 0b01#2 0#8]).ResetApplied ∧
      step ((tableAt 5#32).withInputs [shows 0b01#2 0#8]) = .next (tableAt 0xFFFFFFFF#32) ∧
      (tableAt 0xFFFFFFFF#32).acc ≠ ((tableAt 5#32).withInputs [shows 0b01#2 0#8]).acc :=
  ⟨rfl, rfl, by decide⟩

/-- OutputsAreFunctionsOfState, BitstepBitByBit: boundary bits, and both blocks. -/
theorem test_witness_OutputsAreFunctionsOfState :
    0 < 32 ∧ 31 < 32 ∧ 30 < 31 ∧ (tableAt 5#32).ResetApplied ∧ (serialAt 5#32 1#4).ResetApplied ∧ (tableAt 5#32).ready = true ∧ (tableAt 5#32).impl = .table ∧ (serialAt 5#32 1#4).impl = .bitserial := by
  decide

/-- ReadyWithinEightEdges: the invariant at its largest `CNT`, and the edges. -/
theorem test_witness_ReadyWithinEightEdges :
    (serialAt 5#32 8#4).ResetApplied ∧ (serialAt 5#32 8#4).Inv ∧ (List.replicate 8 Ports.idle).length = 8 ∧ ∀ q ∈ List.replicate 8 Ports.idle, q.rst = false := by decide

/-- TableIsTheListedOne, ByteStepLinearAndBijective: equal top bytes, equal results. -/
theorem test_witness_TableIsTheListedOne :
    (tableWord 0x80#8).extractLsb' 24 8 = (tableWord 0x80#8).extractLsb' 24 8 ∧ feedAll 5#32 [0x61#8] = feedAll 5#32 [0x61#8] := ⟨rfl, rfl⟩

/-- OneWrongByteChangesTheChecksum. -/
theorem test_witness_OneWrongByteChangesTheChecksum : 0x69#8 ≠ 0x6A#8 := by decide

/-- StepKeepsTheInvariant, StepKeepsTheMessage: a busy block that holds a message, and a step of it (P4, edge 10). -/
theorem test_witness_StepKeepsTheMessage :
    (serialAt 0x2E908378#32 1#4).ResetApplied ∧ (serialAt 0x2E908378#32 1#4).Inv ∧ (serialAt 0x2E908378#32 1#4).Holds [0x61#8] ∧
      step (serialAt 0x2E908378#32 1#4) = .next (serialAt 0x174841BC#32 0#4) ∧ (serialAt 0x174841BC#32 0#4).ready = true :=
  ⟨by decide, by decide, by decide, rfl, by decide⟩

/-- CrcIsTheChecksumAfterAnyRun: a reset and a byte. -/
theorem test_witness_CrcIsTheChecksumAfterAnyRun :
    (resets 0b00#2 0#8).rst = true ∧
      runEdges [resets 0b00#2 0#8, shows 0b10#2 0x61#8] (tableAt 5#32) = .next (tableAt 0x174841BC#32) ∧ (tableAt 0x174841BC#32).ready = true :=
  ⟨rfl, rfl, rfl⟩

/-- TransactionComputesTheChecksum, MissingInitConcatenates, ReadingChangesNothing, OneTransactionPerChunk: a reset block with a history,
ready and not. -/
theorem test_witness_TransactionComputesTheChecksum :
    (serialAt 5#32 3#4).ResetApplied ∧ (tableAt 5#32).ResetApplied ∧ (tableAt 5#32).ready = true := by decide

/-- MessageTakesTheTabulatedEdges: each block; and a message with two equal bytes whose busy edges show different things. -/
theorem test_witness_MessageTakesTheTabulatedEdges :
    (tableAt 5#32).ResetApplied ∧ (tableAt 5#32).impl = .table ∧
      (serialAt 5#32 0#4).ResetApplied ∧ (serialAt 5#32 0#4).impl = .bitserial ∧ (serialAt 5#32 0#4).cnt = 0#4 ∧
      (∀ x ∈ [(0x61#8, List.replicate 8 Ports.idle), (0x61#8, List.replicate 8 (shows 0b11#2 0x62#8))],
        x.2.length = 8 ∧ ∀ q ∈ x.2, q.rst = false) ∧
      (List.replicate 7 Ports.idle).length < 8 ∧ ∀ q ∈ List.replicate 7 Ports.idle, q.rst = false := by decide

/-- ConsumerAcceptsExactlyTheChecksum: an intact chunk, and one whose last checksum bit is flipped (S3, P5). -/
theorem test_witness_ConsumerAcceptsExactlyTheChecksum :
    (Chunk.construct 0x49#8 0x45#8 0x4E#8 0x44#8 []).checksumField =
        bigEndian (checksum (Chunk.construct 0x49#8 0x45#8 0x4E#8 0x44#8 []).message) ∧
      ({ Chunk.construct 0x49#8 0x45#8 0x4E#8 0x44#8 [] with c3 := 0x83#8 } : Chunk).checksumField ≠
        bigEndian (checksum (Chunk.construct 0x49#8 0x45#8 0x4E#8 0x44#8 []).message) := by decide

end Sys2Proof.Tests
end

section
/-! SUPPORT. The state a reset edge leaves (R23, R89): its result output, and the fixed points of `INIT`. -/

namespace Sys2Proof.Machine

/-- After a reset edge the result is that of the empty message: `INIT` and `XOROUT` cancel (R14). -/
@[simp] theorem crc_resetEdge (s : State) : s.resetEdge.crc = 0x00000000#32 := by
  rw [crc_of_ready (resetEdge_preReset s) (ready_resetEdge s), resetEdge_acc]
  decide

/-- `INIT` writes `ACC` alone (R56), so it changes nothing where `ACC` holds its initial value already. -/
theorem startMessage_eq_self_iff (s : State) : s.startMessage = s ↔ s.acc = Config.initAcc := by
  constructor
  · intro h
    rw [← h, startMessage_acc]
  · intro h
    rw [State.startMessage, State.setAcc, ← h]

theorem exec_init_resetEdge (s : State) : exec .init s.resetEdge = .next s.resetEdge := by
  rw [exec_init, (startMessage_eq_self_iff _).2 (resetEdge_acc s)]

end Sys2Proof.Machine

open Sys2Proof.Machine

/-- Settles O9: the edge is `State.resetEdge` from every state, and each clause is a law of that state. -/
theorem resetEdgeLeavesInitialState : Obligations.ResetEdgeLeavesInitialState := by
  intro op d s
  exact ⟨s.resetEdge, edge_of_rst rfl s, resetEdge_acc s, resetEdge_cnt s, ready_resetEdge s, crc_resetEdge s,
    resetEdge_preReset s, resetEdge_impl s, resetEdge_inputs s, exec_init_resetEdge s⟩

end

section
/-! SUPPORT. The consumer's word on the wire (R32, R74): its four bytes and back. -/

namespace Sys2Proof.Machine

/-- Neighbouring byte ranges of a word join, from the top: 16, then 24, then all 32 bits. -/
@[simp] theorem assembleWord_extractLsb' (w : Word) :
    assembleWord (w.extractLsb' 24 8) (w.extractLsb' 16 8) (w.extractLsb' 8 8) (w.extractLsb' 0 8) = w := by
  have top16 : w.extractLsb' 24 8 ++ w.extractLsb' 16 8 = w.extractLsb' 16 16 :=
    BitVec.extractLsb'_append_extractLsb'_eq_extractLsb' rfl
  have top24 : w.extractLsb' 16 16 ++ w.extractLsb' 8 8 = w.extractLsb' 8 24 :=
    BitVec.extractLsb'_append_extractLsb'_eq_extractLsb' rfl
  have whole : w.extractLsb' 8 24 ++ w.extractLsb' 0 8 = w := BitVec.extractLsb'_append_extractLsb'
  rw [assembleWord, top16, top24, whole]

end Sys2Proof.Machine

open Sys2Proof.Machine

/-- Settles O53: the order is `bigEndian`'s own, and the four bytes join to the word. -/
theorem resultIsSerialisedBigEndian : Obligations.ResultIsSerialisedBigEndian := by
  intro w
  exact ⟨rfl, assembleWord_extractLsb' w⟩

end

section
/-! SUPPORT. The opcode map through the code (R45, R46): a command word is its two fields, the mask `0x300` keeps `op`, and the byte
counts in `UPD` alone. -/

namespace Sys2Proof

@[simp] theorem commandWordOf_fields (w : CommandWord) : commandWordOf (opField w) (dinField w) = w :=
  BitVec.extractLsb'_append_extractLsb'

theorem commandWordOf_and (op op' : OpCode) (din din' : Byte) :
    commandWordOf op din &&& commandWordOf op' din' = commandWordOf (op &&& op') (din &&& din') :=
  BitVec.and_append

/-- The mask of the opcode map keeps `op` and clears `din`. -/
theorem and_opMask (w : CommandWord) : w &&& 0x300#10 = commandWordOf (opField w) 0x00#8 := by
  calc w &&& 0x300#10
      = commandWordOf (opField w) (dinField w) &&& commandWordOf (BitVec.allOnes 2) 0x00#8 := by
        rw [commandWordOf_fields]
        rfl
    _ = commandWordOf (opField w) 0x00#8 := by
        rw [commandWordOf_and, BitVec.and_allOnes, BitVec.and_zero]

/-- A row's match, `op` above eight zeros, is met exactly by the words with that `op`. -/
theorem and_opMask_eq_iff (w : CommandWord) (op : OpCode) : w &&& 0x300#10 = commandWordOf op 0x00#8 ↔ opField w = op := by
  rw [and_opMask]
  constructor
  · intro h
    simpa using congrArg opField h
  · intro h
    rw [h]

theorem opField_eq_iff (w : CommandWord) (op : OpCode) : opField w = op ↔ w.toNat / 256 = op.toNat := by
  have hw : w.toNat < 1024 := w.isLt
  rw [BitVec.toNat_eq, opField, BitVec.extractLsb'_toNat, Nat.shiftRight_eq_div_pow]
  omega

/-- Every code is assigned (R45). -/
theorem opCode_cases (op : OpCode) : op = 0b00#2 ∨ op = 0b01#2 ∨ op = 0b10#2 ∨ op = 0b11#2 := by
  revert op
  decide

/-- The rows of the opcode map (R45), read from the command back to the code. -/
theorem decodeWord_rows (w : CommandWord) :
    (decodeWord w = .nop ↔ opField w = 0b00#2) ∧ (decodeWord w = .init ↔ opField w = 0b01#2) ∧
      (decodeWord w = .upd (dinField w) ↔ opField w = 0b10#2) ∧ (decodeWord w = .rsvd ↔ opField w = 0b11#2) := by
  rcases opCode_cases (opField w) with h | h | h | h <;> simp [decodeWord, h]

/-- Outside `UPD` the code alone decides the command. -/
theorem decodeWord_congr {w w' : CommandWord} (h : opField w = opField w') (hu : opField w ≠ 0b10#2) :
    decodeWord w = decodeWord w' := by
  rw [decodeWord, decodeWord, ← h, if_neg hu, if_neg hu]

end Sys2Proof

namespace Sys2Proof.Machine

/-- Outside `UPD` two samples with the same code carry the same command (R46). -/
theorem command_congr {p q : Ports} (h : p.op = q.op) (hu : p.op ≠ 0b10#2) : p.command = q.command :=
  decodeWord_congr (by simpa [Ports.commandWord] using h) (by simpa [Ports.commandWord] using hu)

/-- An edge sees of a sample its reset and its command, and nothing else. -/
theorem edge_congr {p q : Ports} (hc : p.command = q.command) (hr : p.rst = q.rst) (s : State) : edge p s = edge q s := by
  simp only [edge, edgeBeforeReset, hr, hc]

end Sys2Proof.Machine

open Sys2Proof Sys2Proof.Machine

/-- Settles O1: each row's match and mask name the row's code, and the code decides the command. -/
theorem opcodeMapByMatchAndMask : Obligations.OpcodeMapByMatchAndMask := by
  refine ⟨fun w => ?_, fun w w' h hu => decodeWord_congr h hu⟩
  obtain ⟨hnop, hinit, hupd, hrsvd⟩ := decodeWord_rows w
  exact ⟨hnop.trans (and_opMask_eq_iff w 0b00#2).symm, hinit.trans (and_opMask_eq_iff w 0b01#2).symm,
    hupd.trans (and_opMask_eq_iff w 0b10#2).symm, hrsvd.trans (and_opMask_eq_iff w 0b11#2).symm⟩

/-- Settles O3: the two samples carry the same command, and the ranges of words are those of their codes. -/
theorem dinIgnoredUnlessUpd : Obligations.DinIgnoredUnlessUpd := by
  refine ⟨fun op d d' r s hop => ?_, fun w hw => ?_, fun w hlo hhi => ?_, rfl, rfl⟩
  · have hc := command_congr (p := ⟨r, op, d⟩) (q := ⟨r, op, d'⟩) rfl hop
    exact edge_congr hc rfl s
  · obtain ⟨hnop, -⟩ := decodeWord_rows w
    have hop : w.toNat / 256 = 0 := by omega
    exact hnop.2 ((opField_eq_iff w 0b00#2).2 hop)
  · obtain ⟨-, hinit, -⟩ := decodeWord_rows w
    have hop : w.toNat / 256 = 1 := by omega
    exact hinit.2 ((opField_eq_iff w 0b01#2).2 hop)

end

section
/-! SUPPORT. The commands that write no byte, at an edge (R54 to R56, R59): the command each code presents, the edges of `NOP`, `INIT`
and the reserved code, and runs of edges that change nothing. -/

namespace Sys2Proof.Machine

theorem command_of_op_nop {p : Ports} (h : p.op = 0b00#2) : p.command = .nop := by
  simp [command_eq, h]

theorem command_of_op_init {p : Ports} (h : p.op = 0b01#2) : p.command = .init := by
  simp [command_eq, h]

theorem command_of_op_rsvd {p : Ports} (h : p.op = 0b11#2) : p.command = .rsvd := by
  simp [command_eq, h]

theorem edge_nop_of_ready {p : Ports} {s : State} (hp : p.rst = false) (hop : p.op = 0b00#2) (h0 : s.preReset = none)
    (hr : s.ready = true) : edge p s = .next s := by
  rw [edge_of_accepted hp h0 hr, command_of_op_nop hop, exec_nop]

theorem edge_init_of_ready {p : Ports} {s : State} (hp : p.rst = false) (hop : p.op = 0b01#2) (h0 : s.preReset = none)
    (hr : s.ready = true) : edge p s = .next s.startMessage := by
  rw [edge_of_accepted hp h0 hr, command_of_op_init hop, exec_init]

/-- The reserved code is refused wherever `ready = 1`, before the first reset too (R47, R59): the duty H-3 does not wait for H-1. -/
theorem edge_rsvd_of_ready {p : Ports} {s : State} (hp : p.rst = false) (hop : p.op = 0b11#2) (hr : s.ready = true) :
    edge p s = .refused .reservedOp := by
  have hc : p.command = .rsvd := command_of_op_rsvd hop
  cases h0 : s.preReset with
  | none => rw [edge_of_accepted hp h0 hr, hc, exec_rsvd]
  | some n =>
    rw [edge_of_unset hp h0]
    rcases edgeBeforeReset_cases n p s with ⟨-, hw⟩ | ⟨hrefused, -⟩
    · exact absurd (hw hr) (by simp [hc, Instr.wellFormed])
    · exact hrefused

/-- A run of edges none of which changes `s` ends in `s`. -/
theorem runEdges_of_forall_fixed {ps : List Ports} {s : State} (h : ∀ p ∈ ps, edge p s = .next s) : runEdges ps s = .next s := by
  induction ps with
  | nil => rfl
  | cons p rest ih =>
    obtain ⟨hp, hrest⟩ := List.forall_mem_cons.1 h
    rw [runEdges_cons_next hp, ih hrest]

@[simp] theorem startMessage_startMessage (s : State) : s.startMessage.startMessage = s.startMessage :=
  (startMessage_eq_self_iff _).2 (startMessage_acc s)

/-- Once the accumulator is initialised, the result is that of the empty message (R14, R56). -/
theorem crc_startMessage {s : State} (h0 : s.preReset = none) (hr : s.ready = true) : s.startMessage.crc = 0x00000000#32 := by
  rw [crc_of_ready ((startMessage_preReset s).trans h0) ((ready_startMessage s).trans hr), startMessage_acc]
  exact BitVec.xor_self

end Sys2Proof.Machine

open Sys2Proof.Machine

/-- Settles O19: each `NOP` edge leaves the ready state, so by induction any number of them do; the example is `crc` of its `ACC`. -/
theorem nopChangesNothing : Obligations.NopChangesNothing := by
  refine ⟨exec_nop, fun s ds h0 hr => runEdges_of_forall_fixed ?_, fun s h0 hr hacc => ⟨s, exec_nop s, hr, hacc, ?_⟩⟩
  · intro p hp
    obtain ⟨d, -, rfl⟩ := List.mem_map.1 hp
    exact edge_nop_of_ready rfl rfl h0 hr
  · rw [crc_of_ready h0 hr, hacc]
    decide

/-- Settles O8: the three clauses are the three cases of R54, in their order. -/
theorem edgePriority : Obligations.EdgePriority := by
  intro p s
  refine ⟨fun hp => edge_of_rst hp s, fun h0 hp hb => ⟨?_, edge_of_busy hp h0 hb⟩, fun h0 hp hr => edge_of_accepted hp h0 hr⟩
  exact ((busy_iff h0).1 hb).left

/-- Settles O20: the state after an accepted `INIT` is `State.startMessage`, which a second one keeps; `ACC` after reset is initialised
already. -/
theorem initStartsAMessage : Obligations.InitStartsAMessage := by
  refine ⟨exec_init, fun s d h0 hr => ?_, fun impl => ?_⟩
  · refine ⟨s.startMessage, edge_init_of_ready rfl rfl h0 hr, rfl, (ready_startMessage s).trans hr,
      crc_startMessage h0 hr, ?_⟩
    rw [exec_init, startMessage_startMessage]
  · rw [exec_init, (startMessage_eq_self_iff _).2 (resetOf_acc impl)]

/-- Settles O24: at `ready = 1` the reserved code is refused; a reset edge and a busy step do not look at it. -/
theorem reservedCodeIsRefused : Obligations.ReservedCodeIsRefused :=
  ⟨exec_rsvd, fun _ _ hr => edge_rsvd_of_ready rfl rfl hr, fun s _ => edge_of_rst rfl s,
    fun _ _ h0 hb => edge_of_busy rfl h0 hb⟩

end

section
/-! SUPPORT. The fold of `upd` (R64, R65, R68) and the message of a chunk (R71, R72). -/

namespace Sys2Proof.Machine

@[simp] theorem feedAll_nil (a : Word) : feedAll a [] = a := rfl

@[simp] theorem feedAll_cons (a : Word) (b : Byte) (m : List Byte) : feedAll a (b :: m) = feedAll (updWord a b) m := rfl

theorem feedAll_append (a : Word) (s t : List Byte) : feedAll a (s ++ t) = feedAll (feedAll a s) t :=
  List.foldl_append

@[simp] theorem accAfter_nil : accAfter [] = Config.initAcc := rfl

theorem accAfter_append (s t : List Byte) : accAfter (s ++ t) = feedAll (accAfter s) t :=
  feedAll_append Config.initAcc s t

theorem accAfter_concat (s : List Byte) (b : Byte) : accAfter (s ++ [b]) = updWord (accAfter s) b := by
  rw [accAfter_append, feedAll_cons, feedAll_nil]

/-- `INIT` and `XOROUT` are one constant, so they cancel where no byte is fed (R65). -/
@[simp] theorem checksum_nil : checksum [] = 0x00000000#32 := by
  rw [checksum, accAfter_nil]
  exact BitVec.xor_self

@[simp] theorem length_typeCode (c : Chunk) : c.typeCode.length = 4 := rfl

@[simp] theorem length_message (c : Chunk) : c.message.length = 4 + c.payload.length := by
  rw [Chunk.message, List.length_append, length_typeCode]

theorem message_ne_nil (c : Chunk) : c.message ≠ [] := by
  apply List.ne_nil_of_length_pos
  rw [length_message]
  omega

/-- On the wire the message stands whole between the length field and the checksum field. -/
theorem wireBytes_eq (c : Chunk) : c.wireBytes = bigEndian c.length ++ c.message ++ c.checksumField := by
  rw [Chunk.wireBytes, Chunk.message, List.append_assoc (bigEndian c.length)]

end Sys2Proof.Machine

open Sys2Proof.Machine

/-- Settles O38: the fold starts at `INIT`, a byte appended is fed last, and the inversion is the definition's own. -/
theorem checksumIsAFoldThenAnInversion : Obligations.ChecksumIsAFoldThenAnInversion :=
  ⟨accAfter_nil, accAfter_concat, fun _ => rfl⟩

/-- Settles O39: with no byte fed the accumulator is `INIT`, which `XOROUT` cancels. -/
theorem emptyMessageSumsToZero : Obligations.EmptyMessageSumsToZero :=
  ⟨checksum_nil, accAfter_nil⟩

/-- Settles O54: the message reads neither field, its type code alone has four bytes, and the wire regroups around it. -/
theorem chunkMessageIsTypeThenPayload : Obligations.ChunkMessageIsTypeThenPayload := by
  intro c len d0 d1 d2 d3
  exact ⟨rfl, length_message c, message_ne_nil c, rfl, wireBytes_eq c⟩

end

section
/-! SUPPORT. The two blocks at every edge (R91, R95, R96): an accepted command by its code, a reset edge once reset, and the steps an `UPD`
owes on the bit-serial block. -/

namespace Sys2Proof.Machine

theorem command_of_op_upd {p : Ports} (h : p.op = 0b10#2) : p.command = .upd p.din := by
  simp [command_eq, h]

theorem edge_upd_of_ready {p : Ports} {s : State} (hp : p.rst = false) (hop : p.op = 0b10#2) (h0 : s.preReset = none)
    (hr : s.ready = true) : edge p s = .next (s.feed p.din) := by
  rw [edge_of_accepted hp h0 hr, command_of_op_upd hop, exec_upd]

/-- An accepting edge by `op`, on either block: the table that R95 and R96 end in. -/
theorem edge_of_ready {p : Ports} {s : State} (hp : p.rst = false) (h0 : s.preReset = none) (hr : s.ready = true) :
    edge p s =
      if p.op = 0b00#2 then .next s
      else if p.op = 0b01#2 then .next s.startMessage
      else if p.op = 0b10#2 then .next (s.feed p.din)
      else .refused .reservedOp := by
  rcases opCode_cases p.op with hop | hop | hop | hop
  · simp [hop, edge_nop_of_ready hp hop h0 hr]
  · simp [hop, edge_init_of_ready hp hop h0 hr]
  · simp [hop, edge_upd_of_ready hp hop h0 hr]
  · simp [hop, edge_rsvd_of_ready hp hop hr]

/-- Once a reset has been applied, another reset edge writes `ACC` and `CNT` alone. -/
theorem resetEdge_of_resetApplied {s : State} (h0 : s.ResetApplied) : s.resetEdge = (s.setAcc Config.initAcc).setCnt 0#4 := by
  rw [State.resetEdge, ← h0]
  rfl

theorem ready_iff_of_bitserial {s : State} (h0 : s.preReset = none) (hi : s.impl = .bitserial) : s.ready = true ↔ s.cnt = 0#4 := by
  rw [ready_of_bitserial h0 hi, beq_iff_eq]

/-- The bit-serial block at an edge (R96), through the model's named operations. -/
theorem edge_of_bitserial {p : Ports} {s : State} (h0 : s.preReset = none) (hi : s.impl = .bitserial) :
    edge p s =
      if p.rst = true then .next s.resetEdge
      else if s.cnt ≠ 0#4 then .next s.busyStep
      else if p.op = 0b00#2 then .next s
      else if p.op = 0b01#2 then .next s.startMessage
      else if p.op = 0b10#2 then .next (s.feed p.din)
      else .refused .reservedOp := by
  cases hp : p.rst with
  | true => rw [edge_of_rst hp, if_pos rfl]
  | false =>
    rw [if_neg Bool.false_ne_true]
    by_cases hc : s.cnt = 0#4
    · rw [if_neg (not_not_intro hc), edge_of_ready hp h0 ((ready_iff_of_bitserial h0 hi).2 hc)]
    · rw [if_pos hc, edge_of_busy hp h0 ((busy_iff h0).2 ⟨hi, hc⟩)]

/-- A run of busy edges within the steps owed is that many one-bit steps, whatever the samples show (R96). -/
theorem runEdges_of_owed {ps : List Ports} {s : State} (h0 : s.preReset = none) (hi : s.impl = .bitserial)
    (hps : ∀ q ∈ ps, q.rst = false) (hlen : ps.length ≤ s.cnt.toNat) :
    runEdges ps s = .next ((s.setAcc (bitsteps ps.length s.acc)).setCnt (BitVec.ofNat 4 (s.cnt.toNat - ps.length))) := by
  induction ps generalizing s with
  | nil =>
    rw [runEdges_nil, List.length_nil, Nat.sub_zero, BitVec.ofNat_toNat, BitVec.setWidth_eq]
    rfl
  | cons p rest ih =>
    obtain ⟨hp, hrest⟩ := List.forall_mem_cons.1 hps
    rw [List.length_cons] at hlen ⊢
    have howed : s.cnt ≠ 0#4 := by
      intro hz
      simp [hz] at hlen
    have hcnt : s.busyStep.cnt.toNat = s.cnt.toNat - 1 := by
      rw [busyStep_cnt]
      bv_omega
    rw [runEdges_cons_next (edge_of_busy hp h0 ((busy_iff h0).2 ⟨hi, howed⟩)),
      ih (s := s.busyStep) h0 hi hrest (by omega), busyStep_acc, ← bitsteps_succ, hcnt, Nat.sub_sub, Nat.add_comm 1]
    rfl

/-- An `UPD` at a ready bit-serial block and up to eight edges after it (R96): the byte is in, and a step is done at each edge. -/
theorem runEdges_upd_of_bitserial {p : Ports} {ps : List Ports} {s : State} (hp : p.rst = false) (hop : p.op = 0b10#2)
    (h0 : s.preReset = none) (hi : s.impl = .bitserial) (hc : s.cnt = 0#4) (hps : ∀ q ∈ ps, q.rst = false)
    (hlen : ps.length ≤ 8) :
    runEdges (p :: ps) s =
      .next ((s.setAcc (bitsteps ps.length (s.acc ^^^ zext32 p.din))).setCnt (BitVec.ofNat 4 (8 - ps.length))) := by
  have hr := (ready_iff_of_bitserial h0 hi).2 hc
  rw [runEdges_cons_next (edge_upd_of_ready hp hop h0 hr), feed_of_bitserial hi]
  exact runEdges_of_owed (s := (s.setAcc (s.acc ^^^ zext32 p.din)).setCnt 8#4) h0 hi hps hlen

end Sys2Proof.Machine

open Sys2Proof.Machine

/-- Settles O11: a reset edge is a reset from every state, and a busy edge without one is a busy step, for every `op` and `din`. -/
theorem onlyResetInterruptsBusy : Obligations.OnlyResetInterruptsBusy := by
  intro s op d h0 hi hcnt
  refine ⟨?_, edge_of_busy rfl h0 ((busy_iff h0).2 ⟨hi, hcnt⟩)⟩
  rw [edge_of_rst rfl, resetEdge_of_resetApplied h0]
  rfl

/-- Settles O14: the block is always ready, so an edge is a reset or a command by its code, whose `UPD` feeds the whole byte. -/
theorem tableBlockAtAnEdge : Obligations.TableBlockAtAnEdge := by
  intro p s h0 hi
  have hr := ready_of_table h0 hi
  refine ⟨hr, ?_⟩
  cases hp : p.rst with
  | true =>
    rw [edge_of_rst hp, resetEdge_of_resetApplied h0]
    rfl
  | false =>
    rw [edge_of_ready hp h0 hr, feed_of_table hi]
    rfl

end

section
/-! SUPPORT. The byte step in its two forms (R52, R53, R58): the one-bit step is linear, so the eight steps of `ACC ^ din` split into
those of the low byte, which the table holds, and those of the upper bits, which only shift. -/

namespace Sys2Proof.Machine

/-- `bitstep` as one XOR: the polynomial goes in where the bit shifted out was 1. -/
theorem bitstep_eq (c : Word) : bitstep c = (c >>> 1) ^^^ (if c.getLsbD 0 then Config.poly else 0#32) := by
  rw [bitstep]
  split
  · rfl
  · exact BitVec.xor_zero.symm

theorem bitstep_of_even {c : Word} (h : c.getLsbD 0 = false) : bitstep c = c >>> 1 := by
  rw [bitstep, h, if_neg Bool.false_ne_true]

/-- The polynomial that a bit selects is linear in the bit. -/
theorem select_xor (b b' : Bool) (m : Word) :
    (if b ^^ b' then m else 0#32) = (if b then m else 0#32) ^^^ (if b' then m else 0#32) := by
  cases b <;> cases b' <;> simp

theorem bitstep_xor (x y : Word) : bitstep (x ^^^ y) = bitstep x ^^^ bitstep y := by
  rw [bitstep_eq, bitstep_eq x, bitstep_eq y, BitVec.ushiftRight_xor_distrib, BitVec.getLsbD_xor, select_xor]
  ac_rfl

theorem bitsteps_xor (n : Nat) (x y : Word) : bitsteps n (x ^^^ y) = bitsteps n x ^^^ bitsteps n y := by
  induction n generalizing x y with
  | zero => rfl
  | succ n ih => rw [bitsteps_succ, bitstep_xor, ih, ← bitsteps_succ, ← bitsteps_succ]

/-- Where the low `n` bits are 0 no polynomial goes in: `n` steps are a shift. -/
theorem bitsteps_of_low_zero {n : Nat} {c : Word} (h : ∀ k < n, c.getLsbD k = false) : bitsteps n c = c >>> n := by
  induction n generalizing c with
  | zero => exact (BitVec.ushiftRight_zero c).symm
  | succ n ih =>
    have hlow : ∀ k < n, (c >>> 1).getLsbD k = false := by
      intro k hk
      rw [BitVec.getLsbD_ushiftRight]
      exact h (1 + k) (by omega)
    rw [bitsteps_succ, bitstep_of_even (h 0 n.succ_pos), ih hlow, ← BitVec.shiftRight_add, Nat.add_comm]

/-- XOR with its own low byte clears the low byte of a word and leaves the rest. -/
theorem getLsbD_xor_lowByte (a : Word) (k : Nat) : (a ^^^ zext32 (lowByte a)).getLsbD k = (decide (8 ≤ k) && a.getLsbD k) := by
  rw [BitVec.getLsbD_xor, zext32, lowByte, BitVec.zeroExtend, BitVec.getLsbD_setWidth, BitVec.getLsbD_extractLsb', Nat.zero_add]
  by_cases hk : k < 8
  · have hw : k < 32 := by omega
    simp [hk, hw]
  · have hk8 : 8 ≤ k := by omega
    simp [hk, hk8]

/-- The upper bits of a word only shift in eight steps. -/
theorem bitsteps_xor_lowByte (a : Word) : bitsteps 8 (a ^^^ zext32 (lowByte a)) = a >>> 8 := by
  have hlow : ∀ k < 8, (a ^^^ zext32 (lowByte a)).getLsbD k = false := by
    intro k hk
    rw [getLsbD_xor_lowByte, decide_eq_false (by omega), Bool.false_and]
  rw [bitsteps_of_low_zero hlow]
  apply BitVec.eq_of_getLsbD_eq
  intro k _
  rw [BitVec.getLsbD_ushiftRight, BitVec.getLsbD_ushiftRight, getLsbD_xor_lowByte, decide_eq_true (by omega), Bool.true_and]

theorem zext32_xor (x y : Byte) : zext32 (x ^^^ y) = zext32 x ^^^ zext32 y :=
  BitVec.setWidth_xor

/-- The table form of the byte step is eight one-bit steps (R58). -/
theorem bitsteps_eight_eq_updWord (a : Word) (d : Byte) : bitsteps 8 (a ^^^ zext32 d) = updWord a d := by
  have hsplit : a ^^^ zext32 d = (a ^^^ zext32 (lowByte a)) ^^^ zext32 (tableIndex a d) := by
    rw [tableIndex, zext32_xor, BitVec.xor_assoc, ← BitVec.xor_assoc (zext32 (lowByte a)), BitVec.xor_self, BitVec.zero_xor]
  rw [hsplit, bitsteps_xor, bitsteps_xor_lowByte, ← tableWord_eq, updWord]

end Sys2Proof.Machine

open Sys2Proof.Machine

/-- Settles O15: the edge in its cases, the run of busy edges by induction, and the table form of eight steps; the instance is
computed. -/
theorem serialBlockAtAnEdge : Obligations.SerialBlockAtAnEdge := by
  refine ⟨fun p s h0 hi => ⟨ready_iff_of_bitserial h0 hi, ?_⟩, fun d ps s h0 hi hc hlen hps => ?_, bitsteps_eight_eq_updWord, by decide⟩
  · rw [edge_of_bitserial h0 hi, resetEdge_of_resetApplied h0, feed_of_bitserial hi]
    rfl
  · exact runEdges_upd_of_bitserial rfl rfl h0 hi hc hps hlen

end

section
/-! SUPPORT. The two-byte carrier of a listing (R42, R43, R48, log 5): a command word's number, its two bytes, and what the decoder makes
of them. -/

namespace Sys2Proof

theorem toNat_commandWordOf (op : OpCode) (din : Byte) : (commandWordOf op din).toNat = 256 * op.toNat + din.toNat := by
  rw [commandWordOf, BitVec.toNat_append, ← Nat.shiftLeft_add_eq_or_of_lt din.isLt, Nat.shiftLeft_eq, Nat.mul_comm]

/-- A second byte that holds `op` alone completes a command word. -/
theorem wordOfBytes_zeroExtend (low : Byte) (op : OpCode) : wordOfBytes low (op.zeroExtend 8) = some (commandWordOf op low) := by
  have hhigh : (op.zeroExtend 8).extractLsb' 2 6 = 0#6 ∧ (op.zeroExtend 8).extractLsb' 0 2 = op := by
    revert op
    decide
  rw [wordOfBytes, if_pos hhigh.1, hhigh.2]

/-- A second byte with a bit above `op` completes none. -/
theorem wordOfBytes_eq_none {high : Byte} (h : 4 ≤ high.toNat) (low : Byte) : wordOfBytes low high = none := by
  have hbits : high.extractLsb' 2 6 ≠ 0#6 := by
    intro hz
    have hdiv : (high.extractLsb' 2 6).toNat = high.toNat / 4 % 64 := by
      rw [BitVec.extractLsb'_toNat, Nat.shiftRight_eq_div_pow]
    rw [hz, BitVec.toNat_ofNat] at hdiv
    have hlt := high.isLt
    omega
  rw [wordOfBytes, if_neg hbits]

theorem decode_bytesOfWord (w : CommandWord) (rest : List Byte) : decode (bytesOfWord w ++ rest) = .ok (decodeWord w, rest) := by
  simp [bytesOfWord, decode, wordOfBytes_zeroExtend, commandWordOf_fields]

theorem decodeListing_bytesOfWord (w : CommandWord) {rest : List Byte} {is : List Instr} (h : decodeListing rest = .ok is) :
    decodeListing (bytesOfWord w ++ rest) = .ok (decodeWord w :: is) := by
  simp [bytesOfWord, decodeListing, wordOfBytes_zeroExtend, commandWordOf_fields, h]

@[simp] theorem decodeWord_encodeWord (i : Instr) : decodeWord (encodeWord i) = i := by
  cases i with
  | nop => exact Laws.WordRoundTrip.nop.left
  | init => exact Laws.WordRoundTrip.init.left
  | upd din => exact (Laws.WordRoundTrip.upd din).left
  | rsvd => exact Laws.WordRoundTrip.rsvd.left

theorem encodeListing_cons (i : Instr) (is : List Instr) : encodeListing (i :: is) = bytesOfWord (encodeWord i) ++ encodeListing is :=
  List.flatMap_cons

theorem decodeListing_encodeListing (is : List Instr) : decodeListing (encodeListing is) = .ok is := by
  induction is with
  | nil => rfl
  | cons i is ih => rw [encodeListing_cons, decodeListing_bytesOfWord _ ih, decodeWord_encodeWord]

/-- The decoder takes two bytes a command, and takes them all. -/
theorem length_of_decodeListing {bytes : List Byte} {is : List Instr} (h : decodeListing bytes = .ok is) :
    bytes.length = 2 * is.length := by
  induction bytes using decodeListing.induct generalizing is with
  | case1 =>
    obtain rfl : [] = is := by simpa [decodeListing] using h
    rfl
  | case2 b => simp [decodeListing] at h
  | case3 low high rest w is' hrest hw ih =>
    obtain rfl : decodeWord w :: is' = is := by simpa [decodeListing, hw, hrest] using h
    simp only [List.length_cons, ih hrest]
    omega
  | case4 low high rest w e hrest hw => simp [decodeListing, hw, hrest] at h
  | case5 low high rest hw => simp [decodeListing, hw] at h

end Sys2Proof

open Sys2Proof

/-- Settles O5: a command's bytes are those of its word, which decodes to it; a listing's commands go by induction, and its length is what
the decoder takes. -/
theorem listingRoundTrip : Obligations.ListingRoundTrip := by
  refine ⟨fun i rest => ?_, fun is => ⟨decodeListing_encodeListing is, ?_⟩⟩
  · rw [encode, decode_bytesOfWord, decodeWord_encodeWord]
  · exact length_of_decodeListing (decodeListing_encodeListing is)

/-- Settles O2: the words are concrete, and the decoder computes. -/
theorem listedWordsDecode : Obligations.ListedWordsDecode := by
  unfold Obligations.ListedWordsDecode
  decide

/-- Settles O4: the fields of `{op, din}`, its number, and the word of `UPD` as one case. -/
theorem commandWordIsOpThenDin : Obligations.CommandWordIsOpThenDin :=
  ⟨fun op d => ⟨opField_commandWordOf op d, dinField_commandWordOf op d, toNat_commandWordOf op d⟩, commandWordOf_fields,
    toNat_commandWordOf 0b10#2⟩

/-- Settles O6: a second byte of 4 or more completes no word, and the decoder takes two bytes a command. -/
theorem listingRejectsByName : Obligations.ListingRejectsByName := by
  refine ⟨rfl, fun b => ⟨rfl, rfl⟩, fun low high rest h => ?_, fun bytes is => length_of_decodeListing⟩
  have hnone := wordOfBytes_eq_none h low
  simp [decode, decodeListing, hnone]

end

section
/-! SUPPORT. What a command and an edge leave as it was, and when the time before the first reset ends (R13, R24, R93). -/

namespace Sys2Proof.Machine

theorem exec_frame {i : Instr} {s t : State} (h : exec i s = .next t) :
    t.impl = s.impl ∧ t.inputs = s.inputs ∧ t.preReset = s.preReset := by
  obtain ⟨-, rfl⟩ | ⟨-, rfl⟩ | ⟨din, -, rfl⟩ := exec_next_cases h
  · exact ⟨rfl, rfl, rfl⟩
  · exact ⟨rfl, rfl, rfl⟩
  · exact ⟨feed_impl s din, feed_inputs s din, feed_preReset s din⟩

theorem edge_frame {p : Ports} {s t : State} (h : edge p s = .next t) : t.impl = s.impl ∧ t.inputs = s.inputs := by
  obtain ⟨-, rfl⟩ | ⟨n, -, -, rfl⟩ | ⟨-, -, -, rfl⟩ | ⟨-, -, -, hexec⟩ := edge_next_cases h
  · exact ⟨rfl, rfl⟩
  · exact ⟨rfl, rfl⟩
  · exact ⟨rfl, rfl⟩
  · obtain ⟨himpl, hinputs, -⟩ := exec_frame hexec
    exact ⟨himpl, hinputs⟩

/-- The time before the first reset ends by a reset edge alone, and does not come again (R93). -/
theorem edge_resetApplied_iff {p : Ports} {s t : State} (h : edge p s = .next t) :
    t.ResetApplied ↔ s.ResetApplied ∨ p.rst = true := by
  obtain ⟨hp, rfl⟩ | ⟨n, hp, h0, rfl⟩ | ⟨hp, h0, -, rfl⟩ | ⟨hp, h0, -, hexec⟩ := edge_next_cases h
  · simp [State.ResetApplied, hp]
  · simp [State.ResetApplied, hp, h0]
  · simp [State.ResetApplied, hp, h0]
  · obtain ⟨-, -, hpre⟩ := exec_frame hexec
    simp [State.ResetApplied, hpre, h0]

/-- A run that answers a next state answers one at its first edge and at the rest. -/
theorem runEdges_cons_next_cases {p : Ports} {rest : List Ports} {s t : State} (h : runEdges (p :: rest) s = .next t) :
    ∃ u, edge p s = .next u ∧ runEdges rest u = .next t := by
  cases he : edge p s with
  | next u => exact ⟨u, rfl, by rw [← h, runEdges_cons_next he]⟩
  | fault f => cases f
  | refused r => simp [runEdges_cons_refused he] at h

theorem runEdges_resetApplied_iff {ps : List Ports} {s t : State} (h : runEdges ps s = .next t) :
    t.ResetApplied ↔ s.ResetApplied ∨ ∃ p ∈ ps, p.rst = true := by
  induction ps generalizing s with
  | nil =>
    obtain rfl : s = t := by simpa using h
    simp
  | cons p rest ih =>
    obtain ⟨u, he, hrest⟩ := runEdges_cons_next_cases h
    rw [ih hrest, edge_resetApplied_iff he, or_assoc, List.exists_mem_cons_iff]

end Sys2Proof.Machine

open Sys2Proof Sys2Proof.Machine

/-- Settles O12: a reset edge writes what power-up left free, and by induction a run leaves that time by a reset edge only. -/
theorem powerUpNeedsOneReset : Obligations.PowerUpNeedsOneReset :=
  ⟨fun impl _ hp => edge_of_rst hp (State.powerUp impl []), fun _ _ _ => runEdges_resetApplied_iff⟩

/-- Settles O27: the three fields of the model are the frame of every command, and only `UPD` on the bit-serial block reaches `CNT`. -/
theorem commandFrames : Obligations.CommandFrames := by
  intro i s t h
  obtain ⟨himpl, hinputs, hpre⟩ := exec_frame h
  refine ⟨himpl, hinputs, hpre, fun hi => ?_, fun hcnt => ?_⟩
  · subst hi
    obtain rfl : s = t := by simpa [exec_nop] using h
    rfl
  · obtain ⟨-, rfl⟩ | ⟨-, rfl⟩ | ⟨din, rfl, rfl⟩ := exec_next_cases h
    · exact absurd rfl hcnt
    · exact absurd rfl hcnt
    · cases hi : s.impl with
      | table => exact absurd (by rw [feed_of_table hi, setAcc_cnt]) hcnt
      | bitserial => exact ⟨rfl, din, rfl⟩

/-- Settles O28: of the things an edge can be, only a `NOP` is left out, and it leaves the state. -/
theorem onlyTheseWriteTheAccumulator : Obligations.OnlyTheseWriteTheAccumulator := by
  intro s t h0 h hacc
  rw [step_eq] at h
  obtain ⟨hp, -⟩ | ⟨n, -, hsome, -⟩ | ⟨-, -, hb, -⟩ | ⟨-, -, -, hexec⟩ := edge_next_cases h
  · exact .inl hp
  · exact absurd hsome (by simp [h0])
  · exact .inr (.inl hb)
  · rcases opCode_cases s.presented.op with hop | hop | hop | hop
    · rw [command_of_op_nop hop, exec_nop, Host.Outcome.next.injEq] at hexec
      exact absurd (by rw [← hexec, consumed_acc]) hacc
    · exact .inr (.inr (.inl hop))
    · exact .inr (.inr (.inr hop))
    · simp [command_of_op_rsvd hop, exec_rsvd] at hexec

end

section
/-! SUPPORT. The invariant of the block over one edge and over a run (R16, R66): what an edge does with the steps owed, `CNT`, and the
message the block holds. -/

namespace Sys2Proof.Machine

/-! ### The steps owed -/

theorem settled_of_cnt_zero {s : State} (hc : s.cnt = 0#4) : s.settled = s.acc := by
  rw [State.settled, hc]
  rfl

/-- A busy step does one of the steps owed. -/
theorem settled_busyStep {s : State} (hc : s.cnt ≠ 0#4) : s.busyStep.settled = s.settled := by
  have hpred : s.cnt.toNat = (s.cnt - 1#4).toNat + 1 := by bv_omega
  rw [State.settled, State.settled, hpred, bitsteps_succ, busyStep_acc, busyStep_cnt]

/-- An `UPD` at rest owes, or has done, the byte step (R57, R58). -/
theorem settled_feed {s : State} (hc : s.cnt = 0#4) (din : Byte) : (s.feed din).settled = updWord s.acc din := by
  cases hi : s.impl with
  | table => rw [feed_of_table hi, settled_of_cnt_zero (by rw [setAcc_cnt, hc]), setAcc_acc]
  | bitserial =>
    rw [feed_of_bitserial hi]
    exact bitsteps_eight_eq_updWord s.acc din

/-- A ready block of the invariant owes no step. -/
theorem cnt_eq_zero_of_ready {s : State} (h0 : s.ResetApplied) (hinv : s.Inv) (hr : s.ready = true) : s.cnt = 0#4 := by
  cases hi : s.impl with
  | table => exact hinv.2 hi
  | bitserial => exact (ready_iff_of_bitserial h0 hi).1 hr

/-! ### The invariant of `CNT` -/

/-- `CNT` is 0 on the table-driven block, before the first reset too (R16). -/
theorem unsetCnt_table (n : Nat) : unsetCnt .table n = 0#4 := rfl

theorem inv_of_cnt_zero {s : State} (hc : s.cnt = 0#4) : s.Inv :=
  ⟨fun _ => by simp [hc], fun _ => hc⟩

theorem inv_of_unset {s : State} {n k : Nat} (h0 : s.preReset = some n) (hc : s.cnt = unsetCnt s.impl k) : s.Inv := by
  refine ⟨fun hreset => ?_, fun hi => ?_⟩
  · simp [State.ResetApplied, h0] at hreset
  · rw [hc, hi, unsetCnt_table]

theorem feed_inv {s : State} (hinv : s.Inv) (din : Byte) : (s.feed din).Inv := by
  cases hi : s.impl with
  | table =>
    rw [feed_of_table hi]
    exact hinv
  | bitserial => exact ⟨fun _ => by simp [feed_of_bitserial hi], fun ht => by simp [hi] at ht⟩

theorem exec_inv {i : Instr} {s t : State} (hinv : s.Inv) (h : exec i s = .next t) : t.Inv := by
  obtain ⟨-, rfl⟩ | ⟨-, rfl⟩ | ⟨din, -, rfl⟩ := exec_next_cases h
  · exact hinv
  · exact hinv
  · exact feed_inv hinv din

theorem busyStep_inv {s : State} (h0 : s.ResetApplied) (hinv : s.Inv) (hb : s.ready = false) : s.busyStep.Inv := by
  obtain ⟨hi, hc⟩ := (busy_iff h0).1 hb
  have hle := hinv.1 h0
  refine ⟨fun _ => ?_, fun ht => ?_⟩
  · rw [busyStep_cnt]
    bv_omega
  · simp [hi] at ht

theorem edge_inv {p : Ports} {s t : State} (hinv : s.Inv) (h : edge p s = .next t) : t.Inv := by
  obtain ⟨-, rfl⟩ | ⟨n, -, -, rfl⟩ | ⟨-, h0, hb, rfl⟩ | ⟨-, -, -, hexec⟩ := edge_next_cases h
  · exact inv_of_cnt_zero rfl
  · exact inv_of_unset (stayUnset_preReset s n) rfl
  · exact busyStep_inv h0 hinv hb
  · exact exec_inv hinv hexec

/-! ### The message held -/

theorem holds_nil_of_acc {s : State} (hc : s.cnt = 0#4) (ha : s.acc = Config.initAcc) : s.Holds [] := by
  rw [State.Holds, settled_of_cnt_zero hc, ha, accAfter_nil]

theorem exec_holds {i : Instr} {s t : State} {m : List Byte} (hc : s.cnt = 0#4) (hm : s.Holds m) (h : exec i s = .next t) :
    t.Holds (messageAfterCommand i m) := by
  obtain ⟨rfl, rfl⟩ | ⟨rfl, rfl⟩ | ⟨din, rfl, rfl⟩ := exec_next_cases h
  · exact hm
  · exact holds_nil_of_acc hc rfl
  · have hacc : s.acc = accAfter m := by rw [← hm, settled_of_cnt_zero hc]
    rw [messageAfterCommand, State.Holds, settled_feed hc, accAfter_concat, hacc]

theorem messageAfterEdge_of_rst {p : Ports} (hp : p.rst = true) (s : State) (m : List Byte) : messageAfterEdge p s m = [] := by
  simp [messageAfterEdge, hp]

theorem messageAfterEdge_of_busy {p : Ports} {s : State} (hp : p.rst = false) (h0 : s.preReset = none) (hb : s.ready = false)
    (m : List Byte) : messageAfterEdge p s m = m := by
  simp [messageAfterEdge, hp, h0, hb]

theorem messageAfterEdge_of_accepted {p : Ports} {s : State} (hp : p.rst = false) (h0 : s.preReset = none) (hr : s.ready = true)
    (m : List Byte) : messageAfterEdge p s m = messageAfterCommand p.command m := by
  simp [messageAfterEdge, hp, h0, hr]

/-- The block holds, after an edge, the message that the edge makes of the one it held (R66). -/
theorem edge_holds {p : Ports} {s t : State} {m : List Byte} (h0 : s.ResetApplied) (hinv : s.Inv) (hm : s.Holds m)
    (h : edge p s = .next t) : t.Holds (messageAfterEdge p s m) := by
  obtain ⟨hp, rfl⟩ | ⟨n, -, hsome, -⟩ | ⟨hp, -, hb, rfl⟩ | ⟨hp, -, hr, hexec⟩ := edge_next_cases h
  · rw [messageAfterEdge_of_rst hp]
    exact holds_nil_of_acc rfl rfl
  · simp [h0] at hsome
  · rw [messageAfterEdge_of_busy hp h0 hb, State.Holds, settled_busyStep ((busy_iff h0).1 hb).right]
    exact hm
  · rw [messageAfterEdge_of_accepted hp h0 hr]
    exact exec_holds (cnt_eq_zero_of_ready h0 hinv hr) hm hexec

/-- Where the block is ready, what it holds stands in `ACC` and, inverted, on `crc` (R14, R66). -/
theorem outputs_of_holds {s : State} {m : List Byte} (h0 : s.ResetApplied) (hinv : s.Inv) (hm : s.Holds m) (hr : s.ready = true) :
    s.acc = accAfter m ∧ s.crc = checksum m := by
  have hacc : s.acc = accAfter m := by rw [← hm, settled_of_cnt_zero (cnt_eq_zero_of_ready h0 hinv hr)]
  refine ⟨hacc, ?_⟩
  rw [crc_of_ready h0 hr, hacc]
  rfl

/-- The block holds the message of its run, from any state of the invariant in which a reset has been applied. -/
theorem runEdges_holds {ps : List Ports} {s t : State} {m : List Byte} (h0 : s.ResetApplied) (hinv : s.Inv) (hm : s.Holds m)
    (h : runEdges ps s = .next t) : t.ResetApplied ∧ t.Inv ∧ t.Holds (messageAfterEdges ps s m) := by
  induction ps generalizing s m with
  | nil =>
    obtain rfl : s = t := by simpa using h
    exact ⟨h0, hinv, hm⟩
  | cons p rest ih =>
    obtain ⟨u, he, hrest⟩ := runEdges_cons_next_cases h
    rw [messageAfterEdges, he]
    exact ih ((edge_resetApplied_iff he).2 (.inl h0)) (edge_inv hinv he) (edge_holds h0 hinv hm he) hrest

end Sys2Proof.Machine

open Sys2Proof.Machine

/-- Settles O44: an edge keeps the reset, the invariant and the message, and a step is an edge at the state with its sample used up. -/
theorem stepKeepsTheMessage : Obligations.StepKeepsTheMessage := by
  intro s t m h0 hinv hm h
  rw [step_eq] at h
  have ht0 : t.ResetApplied := (edge_resetApplied_iff h).2 (.inl h0)
  have htinv : t.Inv := edge_inv (s := s.consumed) hinv h
  have htm : t.Holds (messageAfterEdge s.presented s m) := edge_holds (s := s.consumed) h0 hinv hm h
  exact ⟨ht0, htinv, htm, outputs_of_holds ht0 htinv htm⟩

/-- Settles O42: an edge keeps the invariant, `IMPL`, the rest of the schedule and the reset. -/
theorem stepKeepsTheInvariant : Obligations.StepKeepsTheInvariant := by
  intro s t hinv h
  rw [step_eq] at h
  obtain ⟨himpl, hinputs⟩ := edge_frame h
  exact ⟨edge_inv (s := s.consumed) hinv h, himpl, fun h0 => (edge_resetApplied_iff h).2 (.inl h0), hinputs⟩

/-- Settles O43: `CNT` is 0 after reset, and on the table-driven block at power-up; `ACC` is that of the empty message. -/
theorem resetMeetsTheInvariant : Obligations.ResetMeetsTheInvariant :=
  ⟨fun _ => ⟨inv_of_cnt_zero rfl, holds_nil_of_acc rfl rfl⟩, inv_of_cnt_zero rfl, holds_nil_of_acc rfl rfl,
    fun _ _ => inv_of_unset rfl rfl⟩

/-- Settles O45: the reset edge leaves the empty message, and every later edge keeps the message of the run. -/
theorem crcIsTheChecksumAfterAnyRun : Obligations.CrcIsTheChecksumAfterAnyRun := by
  intro r ps s t m hr h hready
  have he := edge_of_rst hr s
  rw [runEdges_cons_next he] at h
  obtain ⟨ht0, htinv, htm⟩ := runEdges_holds rfl (inv_of_cnt_zero rfl) (holds_nil_of_acc rfl rfl) h
  rw [messageAfterEdges, he, messageAfterEdge_of_rst hr]
  exact (outputs_of_holds ht0 htinv htm hready).right

end

section
/-! SUPPORT. Where an edge has a meaning (R47, R76, R82, R88 H-3): every sample that keeps duty H-3 leads to a next state, every other one
to the refusal of the reserved code, and neither depends on the schedule. -/

namespace Sys2Proof.Machine

theorem command_wellFormed_eq_false_iff (p : Ports) : p.command.wellFormed = false ↔ p.op = 0b11#2 := by
  rcases opCode_cases p.op with hop | hop | hop | hop
  · simp [command_of_op_nop hop, hop, Instr.wellFormed]
  · simp [command_of_op_init hop, hop, Instr.wellFormed]
  · simp [command_of_op_upd hop, hop, Instr.wellFormed]
  · simp [command_of_op_rsvd hop, hop, Instr.wellFormed]

theorem dutiful_eq_false_iff (p : Ports) (s : State) :
    p.dutiful s = false ↔ p.rst = false ∧ s.ready = true ∧ p.op = 0b11#2 := by
  simp [Ports.dutiful, ← command_wellFormed_eq_false_iff, and_assoc]

/-- An edge goes on where the host keeps duty H-3, and is refused where it does not. -/
theorem edge_by_duty (p : Ports) (s : State) :
    (p.dutiful s = true ∧ ∃ t, edge p s = .next t) ∨ (p.dutiful s = false ∧ edge p s = .refused .reservedOp) := by
  cases hd : p.dutiful s with
  | false =>
    obtain ⟨hp, hr, hop⟩ := (dutiful_eq_false_iff p s).1 hd
    exact .inr ⟨rfl, edge_rsvd_of_ready hp hop hr⟩
  | true =>
    refine .inl ⟨rfl, ?_⟩
    cases hp : p.rst with
    | true => exact ⟨_, edge_of_rst hp s⟩
    | false =>
      cases h0 : s.preReset with
      | some n =>
        rw [edge_of_unset hp h0]
        obtain ⟨he, -⟩ | ⟨-, hr, hw⟩ := edgeBeforeReset_cases n p s
        · exact ⟨_, he⟩
        · simp [Ports.dutiful, hp, hr, hw] at hd
      | none =>
        cases hr : s.ready with
        | false => exact ⟨_, edge_of_busy hp h0 hr⟩
        | true =>
          rw [edge_of_accepted hp h0 hr]
          cases hc : p.command with
          | nop => exact ⟨_, exec_nop s⟩
          | init => exact ⟨_, exec_init s⟩
          | upd din => exact ⟨_, exec_upd din s⟩
          | rsvd => simp [Ports.dutiful, hp, hr, hc, Instr.wellFormed] at hd

theorem edge_refused_iff (p : Ports) (s : State) (r : Refusal) :
    edge p s = .refused r ↔ r = .reservedOp ∧ p.rst = false ∧ s.ready = true ∧ p.op = 0b11#2 := by
  rw [← dutiful_eq_false_iff]
  obtain ⟨hd, t, he⟩ | ⟨hd, he⟩ := edge_by_duty p s
  · simp [hd, he]
  · simp [hd, he, eq_comm]

/-- A run goes on as long as the host keeps duty H-3. -/
theorem dutifulRun_iff_runsThrough (ps : List Ports) (s : State) : dutifulRun ps s = true ↔ RunsThrough ps s := by
  induction ps generalizing s with
  | nil => exact ⟨fun _ => ⟨s, rfl⟩, fun _ => rfl⟩
  | cons p rest ih =>
    obtain ⟨hd, t, he⟩ | ⟨hd, he⟩ := edge_by_duty p s
    · rw [RunsThrough, runEdges_cons_next he, dutifulRun, he, hd, Bool.true_and]
      exact ih t
    · simp [RunsThrough, runEdges_cons_refused he, dutifulRun, hd]

/-- A run neither reads nor writes the schedule. -/
theorem runEdges_withInputs (ps : List Ports) (s : State) (xs ys : List Ports) :
    (∃ t : State, runEdges ps (s.withInputs xs) = .next (t.withInputs xs) ∧ runEdges ps (s.withInputs ys) = .next (t.withInputs ys)) ∨
      ∃ r, runEdges ps (s.withInputs xs) = .refused r ∧ runEdges ps (s.withInputs ys) = .refused r := by
  induction ps generalizing s with
  | nil => exact .inl ⟨s, rfl, rfl⟩
  | cons p rest ih =>
    obtain ⟨u, hx, hy⟩ | ⟨r, hx, hy⟩ := edge_withInputs p s xs ys
    · rw [runEdges_cons_next hx, runEdges_cons_next hy]
      exact ih u
    · exact .inr ⟨r, runEdges_cons_refused hx rest, runEdges_cons_refused hy rest⟩

/-- A run that is refused is refused whatever the schedule. -/
theorem runEdges_refused_withInputs {ps : List Ports} {s : State} {r : Refusal} (h : runEdges ps s = .refused r) (xs : List Ports) :
    runEdges ps (s.withInputs xs) = .refused r := by
  have h' : runEdges ps (s.withInputs s.inputs) = .refused r := h
  obtain ⟨t, hs, -⟩ | ⟨q, hs, hx⟩ := runEdges_withInputs ps s s.inputs xs
  · simp [h'] at hs
  · rw [hx, ← hs, h']

/-- The machine's own run takes the edges of its schedule, one a step. -/
theorem coreRun_schedule (ps rest : List Ports) (s : State) :
    Host.Core.run Sys2Proof.core ps.length (s.withInputs (ps ++ rest)) = runEdges ps (s.withInputs rest) := by
  induction ps generalizing s with
  | nil => exact coreRun_zero _
  | cons p ps ih =>
    have hstep : step (s.withInputs (p :: ps ++ rest)) = edge p (s.withInputs (ps ++ rest)) := step_withInputs_cons s p (ps ++ rest)
    obtain ⟨u, hlong, hshort⟩ | ⟨r, hlong, hshort⟩ := edge_withInputs p s (ps ++ rest) rest
    · rw [List.length_cons, coreRun_succ_next (hstep.trans hlong), runEdges_cons_next hshort, ih u]
    · rw [List.length_cons, coreRun_succ_refused (hstep.trans hlong), runEdges_cons_refused hshort]
      rfl

/-- More steps do not wash a refusal out. -/
theorem coreRun_refused_mono {j k : Nat} {s : State} {r : Refusal} (h : Host.Core.run Sys2Proof.core j s = .refused r) (hjk : j ≤ k) :
    Host.Core.run Sys2Proof.core k s = .refused r := by
  induction j generalizing k s with
  | zero => simp [coreRun_zero] at h
  | succ j ih =>
    obtain ⟨k, rfl⟩ : ∃ i, k = i + 1 := ⟨k - 1, by omega⟩
    cases hs : step s with
    | next t =>
      rw [coreRun_succ_next hs] at h ⊢
      exact ih h (by omega)
    | fault f => cases f
    | refused q =>
      rw [coreRun_succ_refused hs] at h ⊢
      exact h

theorem runEdges_append_cons_refused {ps : List Ports} {p : Ports} {s t : State} {r : Refusal} (h : runEdges ps s = .next t)
    (he : edge p t = .refused r) (qs : List Ports) : runEdges (ps ++ p :: qs) s = .refused r := by
  rw [runEdges_append h, runEdges_cons_refused he]

/-- Any number of steps past a refused edge of the schedule end in its refusal. -/
theorem coreRun_append_cons_refused {ps : List Ports} {p : Ports} {s t : State} {r : Refusal} (h : runEdges ps s = .next t)
    (he : edge p t = .refused r) (qs : List Ports) {k : Nat} (hk : ps.length < k) :
    Host.Core.run Sys2Proof.core k (s.withInputs (ps ++ p :: qs)) = .refused r := by
  have hrun : runEdges (ps ++ [p]) s = .refused r := runEdges_append_cons_refused h he []
  have hcore := coreRun_schedule (ps ++ [p]) qs s
  rw [runEdges_refused_withInputs hrun, List.append_assoc] at hcore
  exact coreRun_refused_mono hcore (by simpa using hk)

end Sys2Proof.Machine

open Sys2Proof Sys2Proof.Machine

/-- Settles O25: a step is an edge, and an edge is refused exactly where duty H-3 is broken; `Fault` has no value. -/
theorem onlyAnAcceptedReservedCodeStops : Obligations.OnlyAnAcceptedReservedCodeStops := by
  intro s
  refine ⟨(fun f => nomatch f), fun r => ?_⟩
  rw [step_eq, edge_refused_iff, ready_consumed]

/-- Settles O51: by induction on the samples, each of which goes on exactly where it keeps the duty. -/
theorem dutifulRunsGoThrough : Obligations.DutifulRunsGoThrough :=
  dutifulRun_iff_runsThrough

/-- Settles O52: by induction on the samples, as an edge does not look at the schedule. -/
theorem stepsFollowTheSchedule : Obligations.StepsFollowTheSchedule :=
  coreRun_schedule

/-- Settles O26: the accepted reserved code is refused at its edge, edges after it are never taken, and the machine's own run takes the
edges of its schedule. -/
theorem refusalIsNeverWashedOut : Obligations.RefusalIsNeverWashedOut := by
  intro ps qs s t d h hr
  have he : edge { rst := false, op := 0b11#2, din := d } t = .refused .reservedOp := edge_rsvd_of_ready rfl rfl hr
  exact ⟨runEdges_append_cons_refused h he qs, fun k => coreRun_append_cons_refused h he qs⟩

/-- Settles O57: before the first reset an edge without one is `edgeBeforeReset`, refused exactly at the reserved code with `ready = 1`. -/
theorem edgeWithoutResetStaysUnreset : Obligations.EdgeWithoutResetStaysUnreset := by
  intro s n p h0 hp
  split
  next hrsvd => exact edge_rsvd_of_ready hp hrsvd.left hrsvd.right
  next hduty =>
    obtain ⟨-, t, he⟩ | ⟨hd, -⟩ := edge_by_duty p s
    · obtain ⟨hp', -⟩ | ⟨k, -, hk, rfl⟩ | ⟨-, hnone, -⟩ | ⟨-, hnone, -⟩ := edge_next_cases he
      · simp [hp] at hp'
      · obtain rfl : n = k := by simpa [h0] using hk
        exact ⟨s.stayUnset n, he, stayUnset_preReset s n, stayUnset_impl s n, stayUnset_inputs s n⟩
      · simp [h0] at hnone
      · simp [h0] at hnone
    · obtain ⟨-, hr, hop⟩ := (dutiful_eq_false_iff p s).1 hd
      exact absurd ⟨hop, hr⟩ hduty

end

section
/-! SUPPORT. Single edges and commands, from the laws of the edge: held resets, samples that are not accepted, the idle host, the word
presented from outside (log 4), `UPD` on either block, and the two outputs (R14, R15, R57, R90, R97). -/

namespace Sys2Proof

/-- The bytes of a number that is a command word are those of the word. -/
theorem tableWordBytes_of_wordFits {w : Nat} (hw : wordFits w = true) :
    tableWordBytes 16 w = bytesOfWord (Machine.commandWordOfNat 16 w) := by
  have hlt : w < 1024 := by simpa [wordFits] using hw
  have hmod : w % 2 ^ 16 = w := Nat.mod_eq_of_lt (by omega)
  have hlow : BitVec.ofNat 8 w = dinField (BitVec.ofNat 10 w) := by
    apply BitVec.eq_of_toNat_eq
    rw [dinField, BitVec.extractLsb'_toNat, BitVec.toNat_ofNat, BitVec.toNat_ofNat, Nat.shiftRight_zero]
    omega
  have hhigh : BitVec.ofNat 8 (w / 256) = (opField (BitVec.ofNat 10 w)).zeroExtend 8 := by
    apply BitVec.eq_of_toNat_eq
    rw [opField, BitVec.zeroExtend, BitVec.toNat_setWidth, BitVec.extractLsb'_toNat, BitVec.toNat_ofNat, BitVec.toNat_ofNat,
      Nat.shiftRight_eq_div_pow]
    omega
  rw [tableWordBytes, bytesOfWord, Machine.commandWordOfNat, hmod, hlow, hhigh]

theorem decodeTableWord_of_wordFits {w : Nat} (hw : wordFits w = true) :
    decodeTableWord 16 w = some (decodeWord (Machine.commandWordOfNat 16 w)) := by
  rw [decodeTableWord, tableWordBytes_of_wordFits hw, ← List.append_nil (bytesOfWord _), decode_bytesOfWord]

end Sys2Proof

namespace Sys2Proof.Machine

@[simp] theorem command_ofWord (w : CommandWord) : (Ports.ofWord w).command = decodeWord w :=
  congrArg decodeWord (commandWordOf_fields w)

theorem consumed_eq_self {s : State} (h : s.inputs = []) : s.consumed = s := by
  rw [State.consumed, h, List.tail_nil, ← h]

/-- A step at which the block accepts is the command of the next sample, with that sample used up. -/
theorem step_of_accepted {s : State} {p : Ports} {rest : List Ports} (hin : s.inputs = p :: rest) (hp : p.rst = false)
    (h0 : s.preReset = none) (hr : s.ready = true) : step s = exec p.command { s with inputs := rest } := by
  have hc : s.consumed = { s with inputs := rest } := by rw [State.consumed, hin, List.tail_cons]
  rw [step_eq, presented_cons hin, ← hc]
  exact edge_of_accepted (s := s.consumed) hp h0 hr

/-- A word presented from outside is accepted at the next edge (log 4). -/
theorem step_presenting (s : State) (w : CommandWord) :
    step (s.presenting w) = exec (decodeWord w) { s with cnt := 0#4, inputs := s.inputs.tail, preReset := none } := by
  have hready : (s.presenting w).ready = true := by
    cases hi : s.impl <;> simp [State.ready, hi]
  rw [step_of_accepted (presenting_inputs s w) rfl rfl hready, command_ofWord]
  rfl

/-- The table-driven block does the whole byte at the edge of its `UPD` (R95). -/
theorem edge_upd_of_table {p : Ports} {s : State} (hp : p.rst = false) (hop : p.op = 0b10#2) (h0 : s.preReset = none)
    (hi : s.impl = .table) : edge p s = .next (s.setAcc (updWord s.acc p.din)) := by
  rw [edge_upd_of_ready hp hop h0 (ready_of_table h0 hi), feed_of_table hi]

end Sys2Proof.Machine

open Sys2Proof Sys2Proof.Machine

/-- Settles O10: the first reset edge leaves a state that each later one leaves as it is. -/
theorem resetHeldIsResetOnce : Obligations.ResetHeldIsResetOnce := by
  intro p ps s hp hps
  have hfixed : runEdges ps s.resetEdge = .next s.resetEdge :=
    runEdges_of_forall_fixed fun q hq => edge_of_rst (hps q hq) s.resetEdge
  rw [runEdges_cons_next (edge_of_rst hp s), hfixed, edge_of_rst hp]

/-- Settles O7: a step is an edge with the next sample; the word from outside is accepted, and the table's reading of it is the
decoder's. -/
theorem stepRunsPresentedCommand : Obligations.StepRunsPresentedCommand := by
  refine ⟨fun s p rest h0 hin hp hr => step_of_accepted hin hp h0 hr, fun s w hw => ?_⟩
  exact ⟨_, decodeTableWord_of_wordFits hw, step_presenting s _⟩

/-- Settles O13: the values are those of `State.resetOf`, and `crc` at `ready = 1` is `ACC` inverted. -/
theorem resetStateValues : Obligations.ResetStateValues := by
  refine ⟨fun impl => ?_, rfl⟩
  have hready : (State.resetOf impl).ready = true := by cases impl <;> rfl
  have hcrc : (State.resetOf impl).crc = 0x00000000#32 := by
    rw [crc_of_ready rfl hready, resetOf_acc, BitVec.xor_self]
  exact ⟨rfl, rfl, hready, hcrc, rfl, rfl⟩

/-- Settles O16: a reset edge and a busy step do not look at the command. -/
theorem unacceptedCommandLeavesNoTrace : Obligations.UnacceptedCommandLeavesNoTrace := by
  intro r op op' d d' s h0 h
  cases r with
  | true => rw [edge_of_rst rfl, edge_of_rst rfl]
  | false =>
    have hb : s.ready = false := by simpa using h
    rw [edge_of_busy rfl h0 hb, edge_of_busy rfl h0 hb]

/-- Settles O17: two accepted `UPD`s of the table-driven block feed the byte twice, part after part. -/
theorem tableBlockFeedsAHeldByteTwice : Obligations.TableBlockFeedsAHeldByteTwice := by
  intro d s m h0 hi hacc
  rw [runEdges_cons_next (edge_upd_of_table rfl rfl h0 hi),
    runEdges_cons_next (edge_upd_of_table (s := s.setAcc (updWord s.acc d)) rfl rfl h0 hi), accAfter_append, ← hacc]
  rfl

/-- Settles O18: the idle host shows a `NOP`, and there is no sample to use up. -/
theorem idleHostChangesNothing : Obligations.IdleHostChangesNothing := by
  intro s h0 hin hr
  rw [step_eq, presented_nil hin, consumed_eq_self hin]
  exact edge_nop_of_ready rfl rfl h0 hr

/-- Settles O21: the table-driven block feeds the byte by `upd`. -/
theorem updOnTheTableBlock : Obligations.UpdOnTheTableBlock := by
  intro d s hi
  rw [exec_upd, feed_of_table hi]
  rfl

/-- Settles O22: the bit-serial block owes eight steps after an `UPD`, and so is busy. -/
theorem updOnTheSerialBlock : Obligations.UpdOnTheSerialBlock := by
  intro d s hi
  have hfeed := feed_of_bitserial hi d
  refine ⟨s.feed d, exec_upd d s, hfeed, fun h0 => ?_⟩
  have howed : (s.feed d).cnt ≠ 0#4 := by
    rw [hfeed, setCnt_cnt]
    decide
  exact (busy_iff ((feed_preReset s d).trans h0)).2 ⟨(feed_impl s d).trans hi, howed⟩

/-- Settles O29: `XOROUT` is all ones, and `crc` and `ready` are functions of the state once reset. -/
theorem outputsAreFunctionsOfState : Obligations.OutputsAreFunctionsOfState := by
  intro s
  refine ⟨rfl, fun k hk => ?_, fun h0 => ⟨crc_of_ready h0, ready_of_table h0, ready_iff_of_bitserial h0⟩⟩
  have hones : Config.xorOut = BitVec.allOnes 32 := by decide
  rw [State.crcWire, hones, BitVec.xor_allOnes, BitVec.getLsbD_not, decide_eq_true hk, Bool.true_and]

end

section
/-! SUPPORT. The arithmetic of the two steps (R52, R53, R57, R58, R61) and of the table (R25, R26): both steps are linear and lose nothing,
so what holds of all pairs of words or indices is checked at 0. -/

namespace Sys2Proof.Machine

/-! ### The one-bit step -/

theorem getLsbD_bitstep (c : Word) (k : Nat) :
    (bitstep c).getLsbD k = (c.getLsbD (k + 1) ^^ (c.getLsbD 0 && Config.poly.getLsbD k)) := by
  rw [bitstep_eq, BitVec.getLsbD_xor, BitVec.getLsbD_ushiftRight, Nat.add_comm 1 k]
  cases c.getLsbD 0 <;> simp

theorem getLsbD_bitstep_top (c : Word) : (bitstep c).getLsbD 31 = c.getLsbD 0 := by
  have htop : Config.poly.getLsbD 31 = true := by decide
  have hout : c.getLsbD 32 = false := BitVec.getLsbD_of_ge c 32 (le_refl 32)
  rw [getLsbD_bitstep, htop, hout, Bool.and_true, Bool.false_xor]

/-- A step that leaves 0 shifted a 0 out, and every other bit is still there. -/
theorem eq_zero_of_bitstep_eq_zero {c : Word} (h : bitstep c = 0#32) : c = 0#32 := by
  have hlow : c.getLsbD 0 = false := by rw [← getLsbD_bitstep_top, h, BitVec.getLsbD_zero]
  apply BitVec.eq_of_getLsbD_eq
  intro k _
  cases k with
  | zero => rw [hlow, BitVec.getLsbD_zero]
  | succ k =>
    have hk := getLsbD_bitstep c k
    rw [h, hlow, Bool.false_and, Bool.xor_false] at hk
    rw [← hk, BitVec.getLsbD_zero, BitVec.getLsbD_zero]

theorem bitstep_injective : Function.Injective bitstep := by
  intro x y h
  have hzero : bitstep (x ^^^ y) = 0#32 := by rw [bitstep_xor, h, BitVec.xor_self]
  exact BitVec.xor_eq_zero_iff.1 (eq_zero_of_bitstep_eq_zero hzero)

theorem bitsteps_injective (n : Nat) : Function.Injective (bitsteps n) := by
  induction n with
  | zero => exact fun _ _ h => h
  | succ n ih => exact ih.comp bitstep_injective

/-! ### The one-byte step -/

theorem updWord_xor (a1 a2 : Word) (b1 b2 : Byte) : updWord (a1 ^^^ a2) (b1 ^^^ b2) = updWord a1 b1 ^^^ updWord a2 b2 := by
  rw [← bitsteps_eight_eq_updWord, ← bitsteps_eight_eq_updWord, ← bitsteps_eight_eq_updWord, ← bitsteps_xor, zext32_xor]
  congr 1
  ac_rfl

theorem tableWord_xor (i j : Byte) : tableWord (i ^^^ j) = tableWord i ^^^ tableWord j := by
  rw [tableWord_eq, zext32_xor, bitsteps_xor, ← tableWord_eq, ← tableWord_eq]

theorem updWord_injective_left (b : Byte) : Function.Injective fun a => updWord a b := by
  intro x y (h : updWord x b = updWord y b)
  rw [← bitsteps_eight_eq_updWord, ← bitsteps_eight_eq_updWord] at h
  exact (BitVec.xor_left_inj (zext32 b)).1 (bitsteps_injective 8 h)

@[simp] theorem lowByte_zext32 (b : Byte) : lowByte (zext32 b) = b := by
  apply BitVec.eq_of_getLsbD_eq
  intro k hk
  have hw : k < 32 := by omega
  simp [lowByte, zext32, hk, hw]

theorem zext32_injective : Function.Injective zext32 :=
  Function.LeftInverse.injective lowByte_zext32

theorem updWord_injective_right (a : Word) : Function.Injective (updWord a) := by
  intro x y h
  rw [← bitsteps_eight_eq_updWord, ← bitsteps_eight_eq_updWord] at h
  exact zext32_injective ((BitVec.xor_right_inj a).1 (bitsteps_injective 8 h))

/-- Two accumulators never merge under the same bytes (R61). -/
theorem feedAll_injective (m : List Byte) : Function.Injective fun a => feedAll a m := by
  induction m with
  | nil => exact fun _ _ h => h
  | cons b m ih => exact ih.comp (updWord_injective_left b)

/-- The shift leaves the top byte to the table (R53). -/
theorem updWord_topByte (a : Word) (b : Byte) :
    (updWord a b).extractLsb' 24 8 = (tableWord (tableIndex a b)).extractLsb' 24 8 := by
  have hshift : (a >>> 8).extractLsb' 24 8 = 0#8 := by
    apply BitVec.eq_of_getLsbD_eq
    intro k hk
    have hout : a.getLsbD (8 + (24 + k)) = false := BitVec.getLsbD_of_ge a _ (by omega)
    simp [hout]
  rw [updWord, BitVec.extractLsb'_xor, hshift, BitVec.zero_xor]

/-- The accumulator that the byte step with index `i` and a zero byte could leave as it was: solving `a = (a >> 8) ^ T[i]` from the top
byte down. -/
def fixedCandidate (i : Byte) : Word :=
  tableWord i ^^^ (tableWord i >>> 8) ^^^ (tableWord i >>> 16) ^^^ (tableWord i >>> 24)

theorem eq_fixedCandidate {a : Word} (h : updWord a 0x00#8 = a) : a = fixedCandidate (lowByte a) := by
  have hindex : tableIndex a 0x00#8 = lowByte a := BitVec.xor_zero
  rw [updWord, hindex] at h
  have hshift : ∀ n : Nat, a >>> n = (a >>> (n + 8)) ^^^ (tableWord (lowByte a) >>> n) := by
    intro n
    calc a >>> n = ((a >>> 8) ^^^ tableWord (lowByte a)) >>> n := by rw [h]
      _ = (a >>> (n + 8)) ^^^ (tableWord (lowByte a) >>> n) := by
        rw [BitVec.ushiftRight_xor_distrib, ← BitVec.shiftRight_add, Nat.add_comm]
  have hout : a >>> 32 = 0#32 := BitVec.ushiftRight_eq_zero (le_refl 32)
  calc a = (a >>> 8) ^^^ tableWord (lowByte a) := h.symm
    _ = fixedCandidate (lowByte a) := by
      rw [hshift 8, hshift 16, hshift 24, hout, BitVec.zero_xor, fixedCandidate]
      ac_rfl

theorem eq_zero_of_lowByte_fixedCandidate (i : Byte) (h : lowByte (fixedCandidate i) = i) : i = 0x00#8 := by
  revert i
  decide

/-! ### The table -/

theorem tableWord_topByte_injective : Function.Injective fun i => (tableWord i).extractLsb' 24 8 := by
  have hzero : ∀ i : Byte, (tableWord i).extractLsb' 24 8 = 0#8 → i = 0x00#8 := by decide
  intro i j h
  have hxor : (tableWord (i ^^^ j)).extractLsb' 24 8 = 0#8 := by
    rw [tableWord_xor, BitVec.extractLsb'_xor, BitVec.xor_eq_zero_iff]
    exact h
  exact BitVec.xor_eq_zero_iff.1 (hzero _ hxor)

/-- The listing is the table in index order, four blocks of rows. -/
theorem tableListing_eq : tableListing = (List.range' 0 256).map fun n => tableWord (BitVec.ofNat 8 n) := by
  have h0 : tableRows0 = (List.range' 0 64).map fun n => tableWord (BitVec.ofNat 8 n) := by decide
  have h1 : tableRows1 = (List.range' 64 64).map fun n => tableWord (BitVec.ofNat 8 n) := by decide
  have h2 : tableRows2 = (List.range' 128 64).map fun n => tableWord (BitVec.ofNat 8 n) := by decide
  have h3 : tableRows3 = (List.range' 192 64).map fun n => tableWord (BitVec.ofNat 8 n) := by decide
  have h01 : List.range' 0 64 ++ List.range' 64 64 = List.range' 0 128 := List.range'_append_1
  have h012 : List.range' 0 128 ++ List.range' 128 64 = List.range' 0 192 := List.range'_append_1
  have h0123 : List.range' 0 192 ++ List.range' 192 64 = List.range' 0 256 := List.range'_append_1
  rw [tableListing, h0, h1, h2, h3, ← List.map_append, ← List.map_append, ← List.map_append, h01, h012, h0123]

theorem tableListing_getElem? (i : Byte) : tableListing[i.toNat]? = some (tableWord i) := by
  have hi : i.toNat < 256 := i.isLt
  rw [tableListing_eq, List.getElem?_map, List.getElem?_range' hi]
  simp

theorem length_tableListing : tableListing.length = Config.nTab := by
  rw [tableListing_eq, List.length_map, List.length_range', Config.nTab]

/-- The indices of each block of rows cancel, so by linearity its words do. -/
theorem tableListing_total : tableListing.foldl (fun x y => x ^^^ y) 0#32 = 0x00000000#32 := by
  have h0 : tableRows0.foldl (fun x y => x ^^^ y) 0#32 = 0#32 := by decide
  have h1 : tableRows1.foldl (fun x y => x ^^^ y) 0#32 = 0#32 := by decide
  have h2 : tableRows2.foldl (fun x y => x ^^^ y) 0#32 = 0#32 := by decide
  have h3 : tableRows3.foldl (fun x y => x ^^^ y) 0#32 = 0#32 := by decide
  rw [tableListing, List.foldl_append, List.foldl_append, List.foldl_append, h0, h1, h2, h3]

end Sys2Proof.Machine

open Sys2Proof Sys2Proof.Machine

/-- Settles O31: the shift moves each bit down and the polynomial goes in where the bit shifted out was 1, its own top bit set. -/
theorem bitstepBitByBit : Obligations.BitstepBitByBit := by
  refine ⟨fun c => ⟨fun k _ => getLsbD_bitstep c k, getLsbD_bitstep_top c⟩, ?_⟩
  decide

/-- Settles O32: the first clause is `upd` itself, the top byte is the table's because the shift leaves it 0, and the examples compute. -/
theorem byteStepByTable : Obligations.ByteStepByTable := by
  refine ⟨fun a b => ⟨rfl, updWord_topByte a b⟩, ?_⟩
  decide

/-- Settles O33: the listing is the computed table in index order; by linearity the top bytes differ because only index 0 has top byte 0. -/
theorem tableIsTheListedOne : Obligations.TableIsTheListedOne :=
  ⟨length_tableListing, rfl, tableListing_getElem?, by decide, by decide, by decide, by decide, fun _ _ h => tableWord_topByte_injective h,
    tableListing_total⟩

/-- Settles O34: the low byte's eight steps are in the table and the upper bits only shift. -/
theorem tableFormEqualsSerialForm : Obligations.TableFormEqualsSerialForm :=
  fun a b => (bitsteps_eight_eq_updWord a b).symm

/-- Settles O35: a linear map with kernel 0 is injective, and an injective map of a finite type is a bijection. -/
theorem bitstepLinearAndBijective : Obligations.BitstepLinearAndBijective :=
  ⟨bitstep_xor, Finite.injective_iff_bijective.1 bitstep_injective⟩

/-- Settles O36: the byte step is eight one-bit steps, so it is linear and injective in the accumulator as they are. -/
theorem byteStepLinearAndBijective : Obligations.ByteStepLinearAndBijective :=
  ⟨updWord_xor, tableWord_xor, fun b => Finite.injective_iff_bijective.1 (updWord_injective_left b),
    fun m _ _ h => feedAll_injective m h⟩

/-- Settles O37: a fixed accumulator is determined by its low byte, and of the 256 candidates only the one at 0 has its own low byte. -/
theorem zeroByteFixesOnlyZero : Obligations.ZeroByteFixesOnlyZero := by
  refine fun a => ⟨fun h => ?_, fun h => ?_⟩
  · have ha := eq_fixedCandidate h
    have hlow : lowByte a = 0x00#8 := eq_zero_of_lowByte_fixedCandidate _ (by rw [← ha])
    rw [ha, hlow]
    decide
  · rw [h]
    decide

/-- Settles O40: the fold over a concatenation is the fold over its parts. -/
theorem partsAreFedPartAfterPart : Obligations.PartsAreFedPartAfterPart :=
  accAfter_append

/-- Settles O41: the byte step is injective in the byte, and every byte fed after it keeps the difference. -/
theorem oneWrongByteChangesTheChecksum : Obligations.OneWrongByteChangesTheChecksum := by
  intro before after b b' hb h
  have hacc : accAfter (before ++ [b] ++ after) = accAfter (before ++ [b'] ++ after) := (BitVec.xor_left_inj Config.xorOut).1 h
  rw [accAfter_append (before ++ [b]), accAfter_append (before ++ [b'])] at hacc
  have hstep : accAfter (before ++ [b]) = accAfter (before ++ [b']) := feedAll_injective after hacc
  rw [accAfter_concat, accAfter_concat] at hstep
  exact hb (updWord_injective_right (accAfter before) hstep)

end

section
/-! SUPPORT. The block once the steps it owes are done (R16, R96, R102, R103): what it waits for, what a whole `UPD` leaves, and the edges of
a message, on either block. -/

namespace Sys2Proof.Machine

/-- The state once the steps owed are done: the table-driven block never owes any. -/
def State.atRest (s : State) : State :=
  match s.impl with
  | .table => s
  | .bitserial => (s.setAcc s.settled).setCnt 0#4

theorem atRest_of_table {s : State} (hi : s.impl = .table) : s.atRest = s := by
  simp [State.atRest, hi]

theorem atRest_of_bitserial {s : State} (hi : s.impl = .bitserial) : s.atRest = (s.setAcc s.settled).setCnt 0#4 := by
  simp [State.atRest, hi]

@[simp] theorem atRest_impl (s : State) : s.atRest.impl = s.impl := by
  cases hi : s.impl <;> simp [State.atRest, hi]

@[simp] theorem atRest_preReset (s : State) : s.atRest.preReset = s.preReset := by
  cases hi : s.impl <;> simp [State.atRest, hi]

theorem atRest_ready {s : State} (h0 : s.preReset = none) : s.atRest.ready = true := by
  cases hi : s.impl with
  | table => rw [atRest_of_table hi, ready_of_table h0 hi]
  | bitserial =>
    rw [atRest_of_bitserial hi]
    exact (ready_iff_of_bitserial (s := (s.setAcc s.settled).setCnt 0#4) h0 hi).2 rfl

/-- A ready block is at rest. -/
theorem atRest_of_ready {s : State} (h0 : s.preReset = none) (hr : s.ready = true) : s.atRest = s := by
  cases hi : s.impl with
  | table => exact atRest_of_table hi
  | bitserial =>
    have hc : s.cnt = 0#4 := (ready_iff_of_bitserial h0 hi).1 hr
    rw [atRest_of_bitserial hi, settled_of_cnt_zero hc, ← hc]
    rfl

theorem atRest_acc {s : State} (hinv : s.Inv) : s.atRest.acc = s.settled := by
  cases hi : s.impl with
  | table => rw [atRest_of_table hi, settled_of_cnt_zero (hinv.2 hi)]
  | bitserial => rw [atRest_of_bitserial hi, setCnt_acc, setAcc_acc]

theorem atRest_cnt {s : State} (hinv : s.Inv) : s.atRest.cnt = 0#4 := by
  cases hi : s.impl with
  | table => rw [atRest_of_table hi, hinv.2 hi]
  | bitserial => rw [atRest_of_bitserial hi, setCnt_cnt]

/-- As many edges without reset as the block is busy for bring it to rest, whatever they show (R96, R103). -/
theorem runEdges_busyEdges {ps : List Ports} {s : State} (h0 : s.preReset = none) (hps : ∀ q ∈ ps, q.rst = false)
    (hlen : ps.length = s.busyEdges) : runEdges ps s = .next s.atRest := by
  cases hi : s.impl with
  | table =>
    obtain rfl : ps = [] := by simpa [State.busyEdges, hi] using hlen
    rw [runEdges_nil, atRest_of_table hi]
  | bitserial =>
    have hcnt : ps.length = s.cnt.toNat := by simpa [State.busyEdges, hi] using hlen
    rw [runEdges_of_owed h0 hi hps hcnt.le, hcnt, Nat.sub_self, atRest_of_bitserial hi]
    rfl

theorem busyEdges_le_eight {s : State} (h0 : s.ResetApplied) (hinv : s.Inv) : s.busyEdges ≤ 8 := by
  cases hi : s.impl with
  | table => simp [State.busyEdges, hi]
  | bitserial => simpa [State.busyEdges, hi] using hinv.1 h0

/-! ### A whole `UPD` -/

theorem busyEdges_feed {s : State} (d : Byte) : (s.feed d).busyEdges = Config.latUpd s.impl := by
  cases hi : s.impl with
  | table => simp [State.busyEdges, hi, Config.latUpd]
  | bitserial => simp [State.busyEdges, feed_of_bitserial hi, hi, Config.latUpd]

/-- At rest after an `UPD` the byte step has been done, and nothing else (R57). -/
theorem atRest_feed {s : State} (h0 : s.preReset = none) (hr : s.ready = true) (d : Byte) :
    (s.feed d).atRest = s.setAcc (updWord s.acc d) := by
  cases hi : s.impl with
  | table =>
    rw [feed_of_table hi]
    exact atRest_of_table hi
  | bitserial =>
    have hc : s.cnt = 0#4 := (ready_iff_of_bitserial h0 hi).1 hr
    rw [atRest_of_bitserial ((feed_impl s d).trans hi), settled_feed hc, feed_of_bitserial hi, ← hc]
    rfl

/-- An `UPD` and the edges of its latency, whatever they show (R57, R102). -/
theorem runEdges_upd {p : Ports} {ps : List Ports} {s : State} (hp : p.rst = false) (hop : p.op = 0b10#2)
    (h0 : s.preReset = none) (hr : s.ready = true) (hps : ∀ q ∈ ps, q.rst = false) (hlen : ps.length = Config.latUpd s.impl) :
    runEdges (p :: ps) s = .next (s.setAcc (updWord s.acc p.din)) := by
  rw [runEdges_cons_next (edge_upd_of_ready hp hop h0 hr), ← atRest_feed h0 hr]
  exact runEdges_busyEdges ((feed_preReset s p.din).trans h0) hps (hlen.trans (busyEdges_feed p.din).symm)

/-- After fewer edges the block is still busy. -/
theorem runEdges_upd_busy {p : Ports} {ps : List Ports} {s : State} (hp : p.rst = false) (hop : p.op = 0b10#2)
    (h0 : s.preReset = none) (hr : s.ready = true) (hps : ∀ q ∈ ps, q.rst = false) (hlen : ps.length < Config.latUpd s.impl) :
    ∃ t, runEdges (p :: ps) s = .next t ∧ t.ready = false := by
  cases hi : s.impl with
  | table => simp [hi, Config.latUpd] at hlen
  | bitserial =>
    have hlt : ps.length < 8 := by simpa [hi, Config.latUpd] using hlen
    have howed : BitVec.ofNat 4 (8 - ps.length) ≠ 0#4 := by bv_omega
    have hc : s.cnt = 0#4 := (ready_iff_of_bitserial h0 hi).1 hr
    refine ⟨_, runEdges_upd_of_bitserial hp hop h0 hi hc hps hlt.le, (busy_iff ?_).2 ⟨?_, howed⟩⟩
    · exact h0
    · exact hi

/-! ### The edges of a message -/

@[simp] theorem command_drive (i : Instr) : (Ports.drive i).command = i := by
  rw [Ports.drive, command_ofWord, decodeWord_encodeWord]

@[simp] theorem drive_rst (i : Instr) : (Ports.drive i).rst = false := rfl

@[simp] theorem drive_upd_op (d : Byte) : (Ports.drive (.upd d)).op = 0b10#2 := opField_commandWordOf 0b10#2 d

@[simp] theorem drive_upd_din (d : Byte) : (Ports.drive (.upd d)).din = d := dinField_commandWordOf 0b10#2 d

/-- The edges that feed a message byte by byte, each with what is shown at the edges of its latency. -/
abbrev feedEdges (m : List (Byte × List Ports)) : List Ports := m.flatMap fun x => Ports.drive (.upd x.1) :: x.2

theorem length_feedEdges {m : List (Byte × List Ports)} {n : Nat} (h : ∀ x ∈ m, x.2.length = n) :
    (feedEdges m).length = (n + 1) * m.length := by
  induction m with
  | nil => rfl
  | cons x m ih =>
    obtain ⟨hx, hm⟩ := List.forall_mem_cons.1 h
    rw [feedEdges, List.flatMap_cons, List.length_append, List.length_cons, hx, ih hm, List.length_cons, Nat.mul_succ, Nat.add_comm]

theorem runEdges_feedEdges {m : List (Byte × List Ports)} {s : State} (h0 : s.preReset = none) (hr : s.ready = true)
    (hm : ∀ x ∈ m, x.2.length = Config.latUpd s.impl ∧ ∀ q ∈ x.2, q.rst = false) :
    runEdges (feedEdges m) s = .next (s.setAcc (feedAll s.acc (m.map Prod.fst))) := by
  induction m generalizing s with
  | nil => rfl
  | cons x m ih =>
    obtain ⟨⟨hlen, hshown⟩, hrest⟩ := List.forall_mem_cons.1 hm
    have hbyte := runEdges_upd (drive_rst _) (drive_upd_op x.1) h0 hr hshown hlen
    rw [drive_upd_din] at hbyte
    rw [feedEdges, List.flatMap_cons, runEdges_append hbyte]
    exact ih (s := s.setAcc (updWord s.acc x.1)) h0 hr hrest

/-- `INIT` and the edges of a message leave its accumulator, and nothing else changed. -/
theorem runEdges_init_feedEdges {m : List (Byte × List Ports)} {s : State} (h0 : s.preReset = none) (hr : s.ready = true)
    (hm : ∀ x ∈ m, x.2.length = Config.latUpd s.impl ∧ ∀ q ∈ x.2, q.rst = false) :
    runEdges (Ports.drive .init :: feedEdges m) s = .next (s.setAcc (accAfter (m.map Prod.fst))) := by
  rw [runEdges_cons_next (edge_init_of_ready rfl rfl h0 hr)]
  exact runEdges_feedEdges (s := s.startMessage) h0 hr hm

theorem crc_setAcc_accAfter {s : State} (h0 : s.preReset = none) (hr : s.ready = true) (m : List Byte) :
    (s.setAcc (accAfter m)).crc = checksum m :=
  crc_of_ready (s := s.setAcc (accAfter m)) h0 hr

end Sys2Proof.Machine

open Sys2Proof Sys2Proof.Machine

/-- Settles O30: the block is busy for at most 8 edges, which bring it to rest. -/
theorem readyWithinEightEdges : Obligations.ReadyWithinEightEdges := by
  intro s h0 hinv
  refine ⟨s.busyEdges, busyEdges_le_eight h0 hinv, fun ps hlen hps => ?_⟩
  refine ⟨s.atRest, runEdges_busyEdges h0 hps hlen, atRest_ready h0, ?_, atRest_acc hinv⟩
  rw [settled_of_cnt_zero (atRest_cnt hinv), atRest_acc hinv]

/-- Settles O23: the latency is the edges the block is busy for after the `UPD`, and on the bit-serial block a step is still owed before. -/
theorem updCompletesAfterItsLatency : Obligations.UpdCompletesAfterItsLatency := by
  intro d ps s h0 hr hps
  refine ⟨fun hlen => ?_, runEdges_upd_busy rfl rfl h0 hr hps⟩
  exact ⟨_, runEdges_upd rfl rfl h0 hr hps hlen, rfl, hr, crc_of_ready (s := s.setAcc (updWord s.acc d)) h0 hr⟩

/-- Settles O50: byte by byte, each with the edges of its latency, of which the table-driven block has none. -/
theorem messageTakesTheTabulatedEdges : Obligations.MessageTakesTheTabulatedEdges := by
  refine ⟨fun s m h0 hi => ?_, fun s m h0 hi hc hm => ?_⟩
  · have hr := ready_of_table h0 hi
    have hrun := runEdges_init_feedEdges (m := m.map fun b => (b, [])) h0 hr (by simp [hi, Config.latUpd])
    have hedges : feedEdges (m.map fun b => (b, [])) = m.map fun b => Ports.drive (.upd b) := by
      rw [feedEdges, List.flatMap_map, List.map_eq_flatMap]
    have hbytes : (m.map fun b => (b, ([] : List Ports))).map Prod.fst = m := by
      rw [List.map_map]
      exact List.map_id m
    rw [hedges, hbytes] at hrun
    exact ⟨_, hrun, hr, crc_setAcc_accAfter h0 hr m⟩
  · have hr := (ready_iff_of_bitserial h0 hi).2 hc
    have hlat : Config.latUpd s.impl = 8 := by rw [hi]; rfl
    have hrun := runEdges_init_feedEdges (m := m) h0 hr (by rwa [hlat])
    refine ⟨length_feedEdges fun x hx => (hm x hx).left, ⟨_, hrun, hr, crc_setAcc_accAfter h0 hr _⟩, fun b shown hlen hshown => ?_⟩
    rw [runEdges_append hrun]
    exact runEdges_upd_busy (s := s.setAcc _) (drive_rst _) (drive_upd_op b) h0 hr hshown (by rwa [setAcc_impl, hlat])

end

section
/-! SUPPORT. The host that runs a listing (R50, R51, R97, log 14): each line acts on the accumulator at rest as it would on a block that is
never busy, so what a listing reads depends on that accumulator alone. -/

namespace Sys2Proof.Machine

/-- The accumulator at rest after a line, from the one at rest before it. -/
def accAfterLine (l : Line) (a : Word) : Word :=
  match l with
  | .reset => Config.initAcc
  | .nop => a
  | .init => Config.initAcc
  | .upd o => updWord a o.value
  | .read _ => a

/-- What a line reads, from the accumulator at rest before it. -/
def readingsOfLine (l : Line) (a : Word) : List Reading :=
  match l with
  | .read name => [{ name := name, value := a ^^^ 0xFFFFFFFF#32 }]
  | .reset => []
  | .nop => []
  | .init => []
  | .upd _ => []

/-- The accumulator at rest after a listing. -/
def accAfterLines (ls : List Line) (a : Word) : Word := ls.foldl (fun b l => accAfterLine l b) a

/-- What a listing reads, oldest first. -/
def readingsOfLines (ls : List Line) (a : Word) : List Reading :=
  match ls with
  | [] => []
  | l :: rest => readingsOfLine l a ++ readingsOfLines rest (accAfterLine l a)

/-! ### One line -/

theorem runEdges_singleton (p : Ports) (s : State) : runEdges [p] s = edge p s := by
  cases he : edge p s with
  | next t => rw [runEdges_cons_next he, runEdges_nil]
  | fault f => cases f
  | refused r => exact runEdges_cons_refused he []

/-- A command held until an edge accepts it runs at the block at rest (R50, R97). -/
theorem runEdges_held {s : State} (h0 : s.preReset = none) (i : Instr) :
    runEdges (List.replicate (s.busyEdges + 1) (Ports.drive i)) s = exec i s.atRest := by
  have hwait : runEdges (List.replicate s.busyEdges (Ports.drive i)) s = .next s.atRest :=
    runEdges_busyEdges h0 (fun q hq => by rw [List.eq_of_mem_replicate hq, drive_rst]) List.length_replicate
  rw [List.replicate_succ', runEdges_append hwait, runEdges_singleton,
    edge_of_accepted (drive_rst i) ((atRest_preReset s).trans h0) (atRest_ready h0), command_drive]

theorem runEdges_read {s : State} (h0 : s.preReset = none) (name : String) : runEdges (linePorts s (.read name)) s = .next s.atRest :=
  runEdges_busyEdges h0 (fun q hq => by rw [List.eq_of_mem_replicate hq, Ports.idle]) List.length_replicate

/-- A line completes once a reset has been applied, and acts on the accumulator at rest and reads from it alone. -/
theorem runEdges_linePorts {s : State} (h0 : s.preReset = none) (l : Line) :
    ∃ t, runEdges (linePorts s l) s = .next t ∧ t.preReset = none ∧ t.impl = s.impl ∧
      t.atRest.acc = accAfterLine l s.atRest.acc ∧ lineReadings l t = readingsOfLine l s.atRest.acc := by
  have h0' : s.atRest.preReset = none := (atRest_preReset s).trans h0
  have hr' : s.atRest.ready = true := atRest_ready h0
  cases l with
  | reset =>
    refine ⟨s.resetEdge, (runEdges_singleton _ s).trans (edge_of_rst rfl s), rfl, rfl, ?_, rfl⟩
    rw [atRest_of_ready rfl (ready_resetEdge s)]
    rfl
  | nop =>
    refine ⟨s.atRest, runEdges_held h0 .nop, h0', atRest_impl s, ?_, rfl⟩
    rw [atRest_of_ready h0' hr']
    rfl
  | init =>
    refine ⟨s.atRest.startMessage, runEdges_held h0 .init, h0', atRest_impl s, ?_, rfl⟩
    rw [atRest_of_ready (s := s.atRest.startMessage) h0' hr']
    rfl
  | upd o =>
    refine ⟨s.atRest.feed o.value, runEdges_held h0 (.upd o.value), (feed_preReset _ _).trans h0',
      (feed_impl _ _).trans (atRest_impl s), ?_, rfl⟩
    rw [atRest_feed h0' hr']
    rfl
  | read name =>
    refine ⟨s.atRest, runEdges_read h0 name, h0', atRest_impl s, ?_, ?_⟩
    · rw [atRest_of_ready h0' hr']
      rfl
    · rw [lineReadings, crc_of_ready h0' hr', readingsOfLine]

/-! ### A listing -/

theorem runLines_cons {l : Line} {s t : State} (h : runEdges (linePorts s l) s = .next t) (ls : List Line) (had : List Reading) :
    runLines (l :: ls) s had = runLines ls t (had ++ lineReadings l t) := by
  rw [runLines, h]

/-- A listing completes once a reset has been applied, with the readings and the accumulator at rest that its lines make. -/
theorem runLines_completes {s : State} (h0 : s.preReset = none) (ls : List Line) (had : List Reading) :
    ∃ t, runLines ls s had = .next (t, had ++ readingsOfLines ls s.atRest.acc) ∧ t.preReset = none ∧ t.impl = s.impl ∧
      t.atRest.acc = accAfterLines ls s.atRest.acc := by
  induction ls generalizing s had with
  | nil => exact ⟨s, by rw [runLines, readingsOfLines, List.append_nil], h0, rfl, rfl⟩
  | cons l ls ih =>
    obtain ⟨u, hedges, hu0, huimpl, huacc, huread⟩ := runEdges_linePorts h0 l
    obtain ⟨t, hlines, ht0, htimpl, htacc⟩ := ih hu0 (had ++ lineReadings l u)
    refine ⟨t, ?_, ht0, htimpl.trans huimpl, ?_⟩
    · rw [runLines_cons hedges, hlines, huread, huacc, readingsOfLines, List.append_assoc]
    · rw [htacc, huacc]
      rfl

theorem runLines_append {ls : List Line} {s t : State} {had out : List Reading} (h : runLines ls s had = .next (t, out))
    (ms : List Line) : runLines (ls ++ ms) s had = runLines ms t out := by
  induction ls generalizing s had with
  | nil =>
    obtain ⟨rfl, rfl⟩ : s = t ∧ had = out := by simpa [runLines] using h
    rfl
  | cons l ls ih =>
    cases he : runEdges (linePorts s l) s with
    | next u =>
      rw [runLines_cons he] at h
      rw [List.cons_append, runLines_cons he, ih h]
    | fault f => cases f
    | refused r => simp [runLines, he] at h

/-- A read leaves the block at rest with its reading taken (R67). -/
theorem runLines_read {s : State} (h0 : s.preReset = none) (name : String) (ls : List Line) (had : List Reading) :
    runLines (.read name :: ls) s had =
      runLines ls s.atRest (had ++ [{ name := name, value := s.atRest.acc ^^^ 0xFFFFFFFF#32 }]) := by
  rw [runLines_cons (runEdges_read h0 name), lineReadings, crc_of_ready ((atRest_preReset s).trans h0) (atRest_ready h0)]

/-- A listing that ends in a read leaves the block ready, with the accumulator of its lines in `ACC`. -/
theorem runLines_append_read {s : State} (h0 : s.preReset = none) (ls : List Line) (name : String) (had : List Reading) :
    ∃ t, runLines (ls ++ [.read name]) s had =
        .next (t, had ++ readingsOfLines ls s.atRest.acc ++
          [{ name := name, value := accAfterLines ls s.atRest.acc ^^^ 0xFFFFFFFF#32 }]) ∧
      t.ready = true ∧ t.acc = accAfterLines ls s.atRest.acc := by
  obtain ⟨u, hlines, hu0, -, huacc⟩ := runLines_completes h0 ls had
  refine ⟨u.atRest, ?_, atRest_ready hu0, huacc⟩
  rw [runLines_append hlines, runLines_read hu0, huacc, runLines]

/-! ### What the lines of a listing make -/

theorem accAfterLines_append (ls ms : List Line) (a : Word) : accAfterLines (ls ++ ms) a = accAfterLines ms (accAfterLines ls a) :=
  List.foldl_append

theorem readingsOfLines_append (ls ms : List Line) (a : Word) :
    readingsOfLines (ls ++ ms) a = readingsOfLines ls a ++ readingsOfLines ms (accAfterLines ls a) := by
  induction ls generalizing a with
  | nil => rfl
  | cons l ls ih =>
    rw [List.cons_append, readingsOfLines, readingsOfLines, ih, List.append_assoc]
    rfl

@[simp] theorem accAfterLines_feedLines (ops : List ByteOperand) (a : Word) :
    accAfterLines (feedLines ops) a = feedAll a (ops.map ByteOperand.value) := by
  rw [accAfterLines, feedLines, List.foldl_map, feedAll, List.foldl_map]
  rfl

@[simp] theorem readingsOfLines_feedLines (ops : List ByteOperand) (a : Word) : readingsOfLines (feedLines ops) a = [] := by
  induction ops generalizing a with
  | nil => rfl
  | cons o ops ih => exact ih (updWord a o.value)

/-- The lines of a transaction before its read (R66). -/
theorem checksumLines_eq (ops : List ByteOperand) (name : String) : checksumLines ops name = (.init :: feedLines ops) ++ [.read name] := rfl

@[simp] theorem accAfterLines_init_feedLines (ops : List ByteOperand) (a : Word) :
    accAfterLines (.init :: feedLines ops) a = accAfter (ops.map ByteOperand.value) :=
  accAfterLines_feedLines ops Config.initAcc

@[simp] theorem readingsOfLines_init_feedLines (ops : List ByteOperand) (a : Word) : readingsOfLines (.init :: feedLines ops) a = [] :=
  readingsOfLines_feedLines ops Config.initAcc

@[simp] theorem accAfterLines_checksumLines (ops : List ByteOperand) (name : String) (a : Word) :
    accAfterLines (checksumLines ops name) a = accAfter (ops.map ByteOperand.value) := by
  rw [checksumLines_eq, accAfterLines_append, accAfterLines_init_feedLines]
  rfl

@[simp] theorem readingsOfLines_checksumLines (ops : List ByteOperand) (name : String) (a : Word) :
    readingsOfLines (checksumLines ops name) a = [{ name := name, value := checksum (ops.map ByteOperand.value) }] := by
  rw [checksumLines_eq, readingsOfLines_append, readingsOfLines_init_feedLines, accAfterLines_init_feedLines]
  rfl

/-- A transaction (R66), from any state in which a reset has been applied. -/
theorem runLines_checksumLines {s : State} (h0 : s.preReset = none) (ops : List ByteOperand) (name : String) :
    ∃ t, runLines (checksumLines ops name) s [] = .next (t, [{ name := name, value := checksum (ops.map ByteOperand.value) }]) ∧
      t.ready = true ∧ t.acc = accAfter (ops.map ByteOperand.value) := by
  have h := runLines_append_read h0 (.init :: feedLines ops) name []
  rw [accAfterLines_init_feedLines, readingsOfLines_init_feedLines] at h
  exact h

end Sys2Proof.Machine

open Sys2Proof Sys2Proof.Machine

/-- Settles O46: a listing that ends in a read leaves the block ready with its lines' accumulator, which `INIT` starts afresh; a `RESET`
first leads to a state in which a reset has been applied. -/
theorem transactionComputesTheChecksum : Obligations.TransactionComputesTheChecksum := by
  intro s ops name
  refine ⟨fun h0 => runLines_checksumLines h0 ops name, ?_⟩
  have hreset : runEdges (linePorts s .reset) s = .next s.resetEdge := (runEdges_singleton _ s).trans (edge_of_rst rfl s)
  rw [runLines_cons hreset]
  exact runLines_checksumLines (resetEdge_preReset s) ops name

/-- Settles O47: the second message's bytes are fed to the accumulator that the first transaction left. -/
theorem missingInitConcatenates : Obligations.MissingInitConcatenates := by
  intro s ops1 ops2 n1 n2 h0
  obtain ⟨t, h, -, -⟩ := runLines_append_read h0 (checksumLines ops1 n1 ++ feedLines ops2) n2 []
  refine ⟨t, h.trans ?_⟩
  simp [readingsOfLines_append, accAfterLines_append, checksum, accAfter_append, Config.xorOut]

/-- Settles O48: a ready block is at rest, so the host waits for no edge. -/
theorem readingChangesNothing : Obligations.ReadingChangesNothing := by
  intro s name ls had h0 hr
  rw [runLines_read h0, atRest_of_ready h0 hr]

/-- Settles O49: both blocks read what the lines make of the accumulator at rest, and it is the same one. -/
theorem implementationIsInvisible : Obligations.ImplementationIsInvisible := by
  intro ls a x y had
  obtain ⟨t, ht, -, hti, htacc⟩ :=
    runLines_completes (s := { impl := .table, acc := a, cnt := 0#4, inputs := x, preReset := none }) rfl ls had
  obtain ⟨u, hu, -, hui, huacc⟩ :=
    runLines_completes (s := { impl := .bitserial, acc := a, cnt := 0#4, inputs := y, preReset := none }) rfl ls had
  refine ⟨t, u, _, ht, hu, ?_⟩
  rw [atRest_of_table hti] at htacc
  rw [atRest_of_bitserial hui] at huacc
  exact htacc.trans huacc.symm

/-- Settles O56: the `INIT` of the second transaction starts it afresh. -/
theorem oneTransactionPerChunk : Obligations.OneTransactionPerChunk := by
  intro s a0 a1 a2 a3 b0 b1 b2 b3 p q n1 n2 h0
  obtain ⟨t, h, -⟩ := runLines_completes h0 (chunkCrcLines a0 a1 a2 a3 p n1 ++ chunkCrcLines b0 b1 b2 b3 q n2) []
  refine ⟨t, h.trans ?_⟩
  rw [readingsOfLines_append, chunkCrcLines, chunkCrcLines, readingsOfLines_checksumLines, readingsOfLines_checksumLines]
  rfl

end

section
/-! SUPPORT. The consumer's comparison (R74): four bytes are the big-endian form of exactly one word. -/

namespace Sys2Proof.Machine

/-- Each byte range of the assembled word lies within one of the received bytes. -/
theorem bigEndian_assembleWord (c0 c1 c2 c3 : Byte) : bigEndian (assembleWord c0 c1 c2 c3) = [c0, c1, c2, c3] := by
  have h3 : (assembleWord c0 c1 c2 c3).extractLsb' 0 8 = c3 := BitVec.extractLsb'_append_eq_right
  have h2 : (assembleWord c0 c1 c2 c3).extractLsb' 8 8 = c2 :=
    (BitVec.extractLsb'_append_eq_of_le (by decide)).trans BitVec.extractLsb'_append_eq_right
  have h1 : (assembleWord c0 c1 c2 c3).extractLsb' 16 8 = c1 :=
    (BitVec.extractLsb'_append_eq_of_le (by decide)).trans
      ((BitVec.extractLsb'_append_eq_of_le (by decide)).trans BitVec.extractLsb'_append_eq_right)
  have h0 : (assembleWord c0 c1 c2 c3).extractLsb' 24 8 = c0 :=
    (BitVec.extractLsb'_append_eq_of_le (by decide)).trans
      ((BitVec.extractLsb'_append_eq_of_le (by decide)).trans BitVec.extractLsb'_append_eq_left)
  rw [bigEndian, h0, h1, h2, h3]

theorem checksumField_eq_bigEndian_iff (c : Chunk) (w : Word) :
    c.checksumField = bigEndian w ↔ w = assembleWord c.c0 c.c1 c.c2 c.c3 := by
  constructor
  · intro h
    obtain ⟨h0, h1, h2, h3⟩ : c.c0 = w.extractLsb' 24 8 ∧ c.c1 = w.extractLsb' 16 8 ∧ c.c2 = w.extractLsb' 8 8 ∧
        c.c3 = w.extractLsb' 0 8 := by simpa [Chunk.checksumField, bigEndian] using h
    rw [h0, h1, h2, h3, assembleWord_extractLsb']
  · intro h
    rw [h, bigEndian_assembleWord]
    rfl

theorem verify_eq_intact_of {c : Chunk} (h : c.checksumField = bigEndian (checksum c.message)) : c.verify = .intact :=
  if_pos ((checksumField_eq_bigEndian_iff c _).1 h)

theorem verify_eq_mismatch_of {c : Chunk} (h : c.checksumField ≠ bigEndian (checksum c.message)) :
    c.verify = .mismatch (checksum c.message) (assembleWord c.c0 c.c1 c.c2 c.c3) :=
  if_neg fun hw => h ((checksumField_eq_bigEndian_iff c _).2 hw)

end Sys2Proof.Machine

open Sys2Proof Sys2Proof.Machine

/-- Settles O55: the comparison is of words, and a word equals the assembled one exactly where its bytes are the field's. -/
theorem consumerAcceptsExactlyTheChecksum : Obligations.ConsumerAcceptsExactlyTheChecksum := by
  refine ⟨fun c => ⟨verify_eq_intact_of, verify_eq_mismatch_of⟩, fun t0 t1 t2 t3 payload => ⟨rfl, rfl, ?_⟩⟩
  exact verify_eq_intact_of (c := Chunk.construct t0 t1 t2 t3 payload) rfl

end
